-- ==== Sys2Proof/Word.lean ====
section
/-! DEFINITION. The word types of the core (00_scope.md R8, R9): widths only. -/

namespace Sys2Proof

/-- A 16-bit word: an instruction, the program counter, the index register, a return address (R8). -/
abbrev Word := BitVec 16

/-- An 8-bit byte: a general register, a memory cell, a timer, the immediate `NN` (R8, R81). -/
abbrev Byte := BitVec 8

/-- The 4-bit immediate `N` (R81). -/
abbrev Nibble := BitVec 4

/-- The 12-bit address immediate `NNN` (R81). -/
abbrev Addr12 := BitVec 12

/-- The name of one of the 16 general registers, V0 to VF (R20). -/
abbrev Reg := Fin 16

/-- The name of one of the 16 logical keys, 0x0 to 0xF (R34). -/
abbrev Key := Fin 16

end Sys2Proof
end

