-- ==== Sys2Proof/Config.lean ====
section
/-! DEFINITION. What an implementation fixes (00_scope.md R8, 92_eei_decisions.md) and the values the spec leaves free. -/

namespace Sys2Proof

/-- `ADDR_POLICY` (D7): what an address above 0xFFF does. -/
inductive AddrPolicy where
  | fault
  | mask12
deriving DecidableEq, Repr

/-- `ALIGN_POLICY` (D8): whether an odd `pc` may be fetched from. -/
inductive AlignPolicy where
  | fault
  | allow
deriving DecidableEq, Repr

/-- `RESERVED_WRITE_POLICY` (D9): what a store below 0x200 does. -/
inductive ReservedWritePolicy where
  | fault
  | allow
deriving DecidableEq, Repr

/-- `KEY_INDEX_POLICY` (D10) and `FONT_DIGIT_POLICY` (D11): what a value above 0x0F does. -/
inductive DigitPolicy where
  | fault
  | lowNibble
deriving DecidableEq, Repr

/-- `FLAG_ORDER` (D13): which of VF and V[X] is written last by 8XY4, 8XY5, 8XY6, 8XY7 and 8XYE. -/
inductive FlagOrder where
  | destLast
  | flagLast
deriving DecidableEq, Repr

/-- `SYS_POLICY` (D17): what SYS 0NNN does. -/
inductive SysPolicy where
  | fault
  | nop
deriving DecidableEq, Repr

/-- `REG_RESET` (D2): the registers V0 to VF and I at reset. -/
inductive RegReset where
  | zero
  | draw
deriving DecidableEq, Repr

/-- `MEM_FILL` (D5): what the bytes hold that neither load writes. -/
inductive MemFill where
  | byte (b : Byte)
  | draw
deriving DecidableEq, Repr

/-- The parameters of one core (92_eei_decisions.md): fixed while it runs. -/
structure Config where
  addrPolicy : AddrPolicy
  alignPolicy : AlignPolicy
  reservedWritePolicy : ReservedWritePolicy
  keyIndexPolicy : DigitPolicy
  fontDigitPolicy : DigitPolicy
  flagOrder : FlagOrder
  /-- `LS_INCREMENT_I` (D16). -/
  lsIncrementI : Bool
  sysPolicy : SysPolicy
  regReset : RegReset
  memFill : MemFill
  /-- `FONT` (D6): digit by digit, five rows each, top to bottom. -/
  font : Vector (Vector Byte 5) 16
deriving DecidableEq, Repr

/-- The byte of the `n`-th CXNN for which the host has injected none (R246): free, nothing constrains it (log 3). -/
opaque Config.freeRandomByte : Nat → Byte

/-- V[k] at reset under `REG_RESET` = draw (D2): free (log 16). -/
opaque Config.freeResetReg : Nat → Byte

/-- I at reset under `REG_RESET` = draw (D2): free (log 16). -/
opaque Config.freeResetIndex : Word

/-- The byte at an address at reset under `MEM_FILL` = draw (D5): free (log 16). -/
opaque Config.freeResetByte : Nat → Byte

/-- `TIMER_HZ` (R8). No rule reads it: a timer tick is a transaction of its own (R241; log 20). -/
def Config.timerHz : Nat := 60

/-- `INSTR_RATE` (R8, D25): OPEN, and read by no rule (R274; log 20). -/
opaque Config.instrRate : Nat

end Sys2Proof
end

