-- ==== Sys2Proof/Machine/Defaults.lean ====
section
/-! DEFINITION. The values of the implementation parameters (00_scope.md R8) and the policies the spec takes by default
(92_eei_decisions.md). -/

namespace Sys2Proof.Machine

/-- `PROG_BASE`: where a program is loaded, and `pc` at reset (R8, R24). -/
def progBase : Nat := 0x200

/-- `PROG_MAX`: the longest program, 4096 - 0x200 bytes (R8, R264). -/
def progMax : Nat := 3584

/-- `RESERVED_TOP`: the last address of the reserved region (R8, R65). -/
def reservedTop : Nat := 0x1FF

/-- `FONT_BASE` (R8; D6, log 9). -/
def fontBase : Nat := 0x050

/-- The font of R263 [from general knowledge, not in source] (log 9): digit by digit, rows top to bottom. -/
def fontTable : Vector (Vector Byte 5) 16 :=
  #v[#v[0xF0, 0x90, 0x90, 0x90, 0xF0], #v[0x20, 0x60, 0x20, 0x20, 0x70], #v[0xF0, 0x10, 0xF0, 0x80, 0xF0],
    #v[0xF0, 0x10, 0xF0, 0x10, 0xF0], #v[0x90, 0x90, 0xF0, 0x10, 0x10], #v[0xF0, 0x80, 0xF0, 0x10, 0xF0],
    #v[0xF0, 0x80, 0xF0, 0x90, 0xF0], #v[0xF0, 0x10, 0x20, 0x40, 0x40], #v[0xF0, 0x90, 0xF0, 0x90, 0xF0],
    #v[0xF0, 0x90, 0xF0, 0x10, 0xF0], #v[0xF0, 0x90, 0xF0, 0x90, 0x90], #v[0xE0, 0x90, 0xE0, 0x90, 0xE0],
    #v[0xF0, 0x80, 0x80, 0x80, 0xF0], #v[0xE0, 0x90, 0x90, 0x90, 0xE0], #v[0xF0, 0x80, 0xF0, 0x80, 0xF0],
    #v[0xF0, 0x80, 0xF0, 0x80, 0x80]]

/-- The defaults of 92_eei_decisions.md (the table of policy parameters; log 4). -/
def defaultConfig : Config where
  addrPolicy := .fault
  alignPolicy := .fault
  reservedWritePolicy := .fault
  keyIndexPolicy := .fault
  fontDigitPolicy := .fault
  flagOrder := .destLast
  lsIncrementI := false
  sysPolicy := .fault
  regReset := .zero
  memFill := .byte 0x00
  font := fontTable

/-- V[k] at reset (R23, D2): 0x00, or free under `REG_RESET` = draw. -/
def resetReg (cfg : Config) (k : Nat) : Byte :=
  match cfg.regReset with
  | .zero => 0x00
  | .draw => Config.freeResetReg k

/-- I at reset (R27, D2): 0x0000, or free under `REG_RESET` = draw. -/
def resetIndex (cfg : Config) : Word :=
  match cfg.regReset with
  | .zero => 0x0000
  | .draw => Config.freeResetIndex

/-- The byte at an address at reset (R262, D5): `MEM_FILL`. -/
def resetByte (cfg : Config) (a : Nat) : Byte :=
  match cfg.memFill with
  | .byte b => b
  | .draw => Config.freeResetByte a

/-- What the register the spec gives no reset value holds: a stack entry (R30; log 6). -/
def resetStackEntry : Word := 0x0000

/-- What the register the spec gives no reset value holds: wait_reg (R36; log 7). -/
def resetWaitReg : Reg := 0

end Sys2Proof.Machine
end

