-- ==== Sys2Proof/Machine/Display.lean ====
section
/-! DEFINITION. The display buffer of 64 x 32 pixels (10_state.md R33) and the sprite XOR on it (43_display.md R180,
R182), pixel by pixel. -/

namespace Sys2Proof.Machine

/-- `disp[y][x]`: row `y` of 32, column `x` of 64, true meaning on (R33). -/
abbrev Display := Vector (Vector Bool 64) 32

/-- Every pixel off. -/
def Display.clear : Display := Vector.replicate 32 (Vector.replicate 64 false)

/-- The pixel in column `x`, row `y`. -/
def Display.pixel (d : Display) (x : Fin 64) (y : Fin 32) : Bool := d[y][x]

/-- Invert one pixel. -/
def Display.toggle (d : Display) (x : Fin 64) (y : Fin 32) : Display :=
  d.set y.val (d[y].set x.val (!d[y][x]) x.isLt) y.isLt

/-- The column of a pixel: coordinates wrap at 64 (R180). -/
def columnOf (x : Nat) : Fin 64 := Fin.ofNat 64 x

/-- The row of a pixel: coordinates wrap at 32 (R180). -/
def rowOf (y : Nat) : Fin 32 := Fin.ofNat 32 y

/-- The bit of a sprite byte at column offset `c`: bit 7 is the leftmost pixel (R180). -/
def spriteBit (b : Byte) (c : Nat) : Bool := b.getLsbD (7 - c)

/-- XOR one sprite bit onto the pixel at `(x, y)`; the flag collects on-to-off transitions (R182). -/
def drawBit (x : Fin 64) (y : Fin 32) (bit : Bool) (acc : Display × Bool) : Display × Bool :=
  if bit then (Display.toggle acc.1 x y, acc.2 || Display.pixel acc.1 x y) else acc

/-- XOR the columns `c`, `c+1`, … (`n` of them) of one sprite byte onto row `y` (R182, inner loop). -/
def drawBits (x0 y : Nat) (b : Byte) : Nat → Nat → Display × Bool → Display × Bool
  | _, 0, acc => acc
  | c, n + 1, acc => drawBits x0 y b (c + 1) n (drawBit (columnOf (x0 + c)) (rowOf y) (spriteBit b c) acc)

/-- XOR the rows of a sprite from row `y` on (R182, outer loop). -/
def drawRows (x0 : Nat) : Nat → List Byte → Display × Bool → Display × Bool
  | _, [], acc => acc
  | y, b :: bs, acc => drawRows x0 (y + 1) bs (drawBits x0 y b 0 8 acc)

/-- Draw a sprite at `(x0, y0)`: the new buffer, and whether some pixel went from on to off (R182). -/
def drawSprite (d : Display) (x0 y0 : Nat) (sprite : List Byte) : Display × Bool :=
  drawRows x0 y0 sprite (d, false)

end Sys2Proof.Machine
end

