-- ==== Sys2Proof/Machine/Memory.lean ====
section
/-! DEFINITION. The memory of 4096 bytes (20_memory.md R60) as a list of cells in one canonical form: addresses strictly
rising, all below 4096, no cell equal to what an unlisted address reads as. -/

namespace Sys2Proof.Machine

/-- `MEM_SIZE` (R8, R60): addresses 0x000 to 0xFFF. -/
def memSize : Nat := 0x1000

/-- Memory: address and byte pairs in canonical form (`Memory.wf`). -/
abbrev Memory := List Host.Cell

/-- What an unlisted address reads as: `MEM_FILL` = 0x00 (70_reset_and_hazards.md R262; log 8). -/
def Memory.fill : Byte := 0x00

/-- The byte at an address. -/
def Memory.read : Memory → Nat → Byte
  | [], _ => Memory.fill
  | (k, b) :: rest, a => if k = a then b else Memory.read rest a

/-- Write one byte and keep the canonical form: writing `Memory.fill` removes the cell. -/
def Memory.write : Memory → Nat → Byte → Memory
  | [], a, b => if b = Memory.fill then [] else [(a, b)]
  | (k, c) :: rest, a, b =>
    if k < a then (k, c) :: Memory.write rest a b
    else if k = a then (if b = Memory.fill then rest else (a, b) :: rest)
    else (if b = Memory.fill then (k, c) :: rest else (a, b) :: (k, c) :: rest)

/-- Write a list of bytes at a list of addresses, first pair first. -/
def Memory.writeList : Memory → List Nat → List Byte → Memory
  | m, a :: as, b :: bs => Memory.writeList (Memory.write m a b) as bs
  | m, _, _ => m

/-- Write a list of bytes at consecutive addresses from `base` on. -/
def Memory.writeBlock : Memory → Nat → List Byte → Memory
  | m, base, b :: bs => Memory.writeBlock (Memory.write m base b) (base + 1) bs
  | m, _, [] => m

/-- The canonical form from address `lo` on. -/
def Memory.wfFrom : Nat → Memory → Bool
  | _, [] => true
  | lo, (a, b) :: rest => decide (lo ≤ a) && decide (a < memSize) && (b != Memory.fill) && Memory.wfFrom (a + 1) rest

/-- The canonical form: equal memories are equal lists. -/
def Memory.wf (m : Memory) : Bool := Memory.wfFrom 0 m

/-- The memory whose byte at each of the `n` addresses from `base` on is `f`'s (the other bytes `Memory.fill`). -/
def Memory.tabulate (f : Nat → Byte) : Nat → Nat → Memory
  | _, 0 => []
  | base, n + 1 =>
    if f base = Memory.fill then Memory.tabulate f (base + 1) n
    else (base, f base) :: Memory.tabulate f (base + 1) n

end Sys2Proof.Machine
end

