-- ==== Sys2Proof/Machine/State.lean ====
section
/-! DEFINITION. The state of the core (10_state.md R41) as plain data, the reasons a step can stop, and the state after
reset (70_reset_and_hazards.md R260). -/

namespace Sys2Proof.Machine

/-- The two runtime states (R35). -/
inductive RunState where
  | running
  | awaitingKey
deriving DecidableEq, Repr

/-- The fault kinds that `fault.kind` can hold (R220). `LoadTooLarge` is a result of the load and never stands here. -/
inductive FaultKind where
  | unsupportedOpcode
  | stackOverflow
  | stackUnderflow
  | addressOutOfRange
  | pcMisaligned
  | reservedWrite
  | keyIndexOutOfRange
  | fontDigitOutOfRange
deriving DecidableEq, Repr

/-- The fault record (R37): the kind, the `pc` of the instruction that faulted, and its word if it had been read. -/
structure FaultRecord where
  kind : FaultKind
  addr : Word
  word : Option Word
deriving DecidableEq, Repr

/-- How far the boot order has come (R265): reset, then `load_font`, then `load_program`, which starts the core or,
on `LoadTooLarge`, ends the run (R264). -/
inductive BootPhase where
  | afterReset
  | fontLoaded
  | started
  | loadTooLarge
deriving DecidableEq, Repr

/-- The transactions of the host (60_exceptions.md R240 to R248). -/
inductive Transaction where
  /-- R240. -/
  | cpuTick
  /-- R241. -/
  | timerTick
  /-- R242. -/
  | keyEvent (k : Key) (pressed : Bool)
  /-- R243. -/
  | loadFont
  /-- R244. -/
  | loadProgram (bytes : List Byte)
  /-- R245. -/
  | displayRead
  /-- R247. -/
  | toneRead
  /-- R248. -/
  | statusRead
deriving DecidableEq, Repr

/-- The state. The last four fields are the model's own (log 2, 3, 4). -/
structure State where
  /-- V0 to VF (R20). -/
  v : Vector Byte 16
  /-- The index register I (R27). -/
  index : Word
  /-- The program counter (R24). -/
  pc : Word
  /-- How many entries the call stack holds, 0 to 16 (R28). -/
  sp : Fin 17
  /-- The call stack (R28). -/
  stack : Vector Word 16
  /-- The delay timer (R31). -/
  dt : Byte
  /-- The sound timer (R31). -/
  st : Byte
  /-- The display buffer (R33). -/
  disp : Display
  /-- The input latch, true meaning pressed (R34). -/
  key : Vector Bool 16
  /-- The runtime state (R35). -/
  run : RunState
  /-- The destination of the pending key wait (R36). -/
  waitReg : Reg
  /-- The fault record (R37). -/
  fault : Option FaultRecord
  /-- Memory (R39). -/
  mem : Memory
  /-- The boot order (R265). -/
  boot : BootPhase
  /-- The parameters of this core: constant (R8, R40; log 4). -/
  cfg : Config
  /-- The host's transactions still to come, first one first (R249; log 2). -/
  pending : List Transaction
  /-- Random bytes the host has injected and no CXNN has drawn (R246; log 3). -/
  rand : List Byte
  /-- How many bytes CXNN has drawn (R143; log 3). -/
  draws : Nat
deriving DecidableEq, Repr

/-- The reasons a step could end in a stop OF THE MODEL. There are none: every fault of the spec is recorded in
`State.fault` and the step answers a next state (R222; log 1), so no one raises a `Fault`. Safe. -/
inductive Fault where
deriving DecidableEq, Repr

/-- What the model gives no meaning to. -/
inductive Refusal where
  /-- An instruction with no meaning yet, by its mnemonic; raised by an arm of `exec` only, and by none now. Safe. -/
  | notModelled (mnemonic : String)
  /-- A load the host issues out of the boot order, which R265 never enables; raised by `loadFont` and `loadProgram`
  transactions only, never by an instruction. Safe (log 12). -/
  | loadNotEnabled
deriving DecidableEq, Repr

/-- The outcome of a step of this machine. -/
abbrev Result := Host.Outcome State Fault Refusal

/-- The memory at reset: every byte `MEM_FILL` (R262). With the default nothing is listed. -/
def resetMemory (cfg : Config) : Memory :=
  if cfg.memFill = .byte Memory.fill then [] else Memory.tabulate (resetByte cfg) 0 memSize

/-- The state right after reset of a core with the given parameters (R260, R41). -/
def State.resetOf (cfg : Config) : State where
  v := Vector.ofFn fun k => resetReg cfg k.val
  index := resetIndex cfg
  pc := BitVec.ofNat 16 progBase
  sp := 0
  stack := Vector.replicate 16 resetStackEntry
  dt := 0x00
  st := 0x00
  disp := Display.clear
  key := Vector.replicate 16 false
  run := .running
  waitReg := resetWaitReg
  fault := none
  mem := resetMemory cfg
  boot := .afterReset
  cfg := cfg
  pending := []
  rand := []
  draws := 0

/-- The state right after reset, with the spec's default parameters. -/
def State.reset : State := State.resetOf defaultConfig

end Sys2Proof.Machine
end

