-- ==== Sys2Proof/Machine/Ops.lean ====
section
/-! DEFINITION. The shared operations over registers, stack, memory, display and random input (00_scope.md R10), and
raising a fault (60_exceptions.md R222). -/

namespace Sys2Proof.Machine

/-- The flag register (R21). -/
def VF : Reg := 15

/-- `V[i]` (R10). -/
def getV (s : State) (x : Reg) : Byte := s.v[x]

/-- `V[i] <- v` (R10). -/
def setV (x : Reg) (b : Byte) (s : State) : State := { s with v := s.v.set x.val b x.isLt }

/-- `pc <- target` (R10). -/
def jumpTo (target : Word) (s : State) : State := { s with pc := target }

/-- `pc <- pc + d`, modulo 2^16 (10_state.md R26). -/
def advance (d : Word) (s : State) : State := { s with pc := s.pc + d }

/-- The default advance, +2 (R103). -/
def advance2 (s : State) : State := advance 2 s

/-- Skip the next word if the condition holds: +4, else +2 (R103). -/
def skipIf (c : Bool) (s : State) : State := if c then advance 4 s else advance 2 s

/-- `I <- v` (R10). -/
def setIndex (a : Word) (s : State) : State := { s with index := a }

/-- The state after a fault: only the record is written, with the unchanged `pc` (R222). -/
def recordFault (k : FaultKind) (word : Option Word) (s : State) : State :=
  { s with fault := some ⟨k, s.pc, word⟩ }

/-- `raise Fault(kind)`: the step goes on to a state in which the core has halted (R222; log 1). -/
def raise (k : FaultKind) (word : Option Word) (s : State) : Result :=
  .next (recordFault k word s)

/-! ## The call stack (10_state.md R29) -/

/-- `push_return(a)`: fails when the stack holds 16 entries. -/
def pushReturn (a : Word) (s : State) : Except FaultKind State :=
  if h : s.sp.val = 16 then .error .stackOverflow
  else .ok { s with
    stack := s.stack.set s.sp.val a (by omega)
    sp := ⟨s.sp.val + 1, by omega⟩ }

/-- `pop_return()`: fails when the stack is empty. -/
def popReturn (s : State) : Except FaultKind (Word × State) :=
  if h : s.sp.val = 0 then .error .stackUnderflow
  else .ok (s.stack[s.sp.val - 1]'(by omega), { s with sp := ⟨s.sp.val - 1, by omega⟩ })

/-! ## Memory (20_memory.md R62); the addresses have passed `checkAddr` -/

/-- The bytes at a list of addresses. -/
def readAll (s : State) (as : List Nat) : List Byte := as.map (Memory.read s.mem)

/-- Store a list of bytes at a list of addresses. -/
def storeAll (as : List Nat) (bs : List Byte) (s : State) : State :=
  { s with mem := Memory.writeList s.mem as bs }

/-- The first `n` registers, V0 first (FX55, 42_index_memory.md R165). -/
def firstRegs (s : State) (n : Nat) : List Byte := s.v.toList.take n

/-- Load a list of bytes into the registers from V[k] on (FX65, R166). -/
def loadFrom : Nat → List Byte → State → State
  | _, [], s => s
  | k, b :: bs, s => loadFrom (k + 1) bs (setV (Fin.ofNat 16 k) b s)

/-- FX55 and FX65 end by adding X + 1 to I under `LS_INCREMENT_I`, modulo 2^16 (R165, R166). -/
def incrementIndex (x : Reg) (s : State) : State :=
  if s.cfg.lsIncrementI then setIndex (s.index + BitVec.ofNat 16 (x.val + 1)) s else s

/-! ## The random input (60_exceptions.md R246) -/

/-- The byte the next CXNN draws: the host's next injected byte, or a free value (log 3). -/
def nextRandom (s : State) : Byte :=
  match s.rand with
  | b :: _ => b
  | [] => Config.freeRandomByte s.draws

/-- Every CXNN draws exactly one byte (R143). -/
def consumeRandom (s : State) : State :=
  { s with rand := s.rand.tail, draws := s.draws + 1 }

end Sys2Proof.Machine
end

