-- ==== Sys2Proof/Machine/Flags.lean ====
section
/-! DEFINITION. The flag computations (41_alu.md R130, R138 to R142; 43_display.md R182) and the order of the two
writes (R131). -/

namespace Sys2Proof.Machine

/-- A flag as the byte VF receives: 1 or 0. -/
def flagByte (f : Bool) : Byte := if f then 1 else 0

/-- Carry of an addition: the true sum exceeds 255 (R130, R138). -/
def carryFlag (a b : Byte) : Bool := decide (a.toNat + b.toNat > 255)

/-- No borrow of `a - b`: `a ≥ b` (R130, R139, R141). -/
def noBorrowFlag (a b : Byte) : Bool := decide (a.toNat ≥ b.toNat)

/-- The bit a right shift moves out (R140). -/
def shiftRightOut (a : Byte) : Bool := a.getLsbD 0

/-- The bit a left shift moves out (R142). -/
def shiftLeftOut (a : Byte) : Bool := a.getLsbD 7

/-- `WriteFlagged(X, r, f)` (R131): the two writes in the order `FLAG_ORDER` gives. -/
def writeFlagged (x : Reg) (r : Byte) (f : Bool) (s : State) : State :=
  match s.cfg.flagOrder with
  | .destLast => setV x r (setV VF (flagByte f) s)
  | .flagLast => setV VF (flagByte f) (setV x r s)

end Sys2Proof.Machine
end

