-- ==== Sys2Proof/Machine/Alu.lean ====
section
/-! DEFINITION. Register loads, ALU and random (41_alu.md R132 to R143). Each advances `pc` by 2 and none can fault. -/

namespace Sys2Proof.Machine

/-- LD VX, NN (R132). -/
def execLdImm (x : Reg) (nn : Byte) (s : State) : Result :=
  .next (advance2 (setV x nn s))

/-- ADD VX, NN: no flag (R133). -/
def execAddImm (x : Reg) (nn : Byte) (s : State) : Result :=
  .next (advance2 (setV x (getV s x + nn) s))

/-- LD VX, VY (R134). -/
def execLdReg (x y : Reg) (s : State) : Result :=
  .next (advance2 (setV x (getV s y) s))

/-- OR VX, VY (R135). -/
def execOrReg (x y : Reg) (s : State) : Result :=
  .next (advance2 (setV x (getV s x ||| getV s y) s))

/-- AND VX, VY (R136). -/
def execAndReg (x y : Reg) (s : State) : Result :=
  .next (advance2 (setV x (getV s x &&& getV s y) s))

/-- XOR VX, VY (R137). -/
def execXorReg (x y : Reg) (s : State) : Result :=
  .next (advance2 (setV x (getV s x ^^^ getV s y) s))

/-- ADD VX, VY with carry (R138). -/
def execAddReg (x y : Reg) (s : State) : Result :=
  .next (advance2 (writeFlagged x (getV s x + getV s y) (carryFlag (getV s x) (getV s y)) s))

/-- SUB VX, VY: V[X] - V[Y] with not-borrow (R139). -/
def execSubReg (x y : Reg) (s : State) : Result :=
  .next (advance2 (writeFlagged x (getV s x - getV s y) (noBorrowFlag (getV s x) (getV s y)) s))

/-- SHR VX; `y` is ignored (R140). -/
def execShr (x _y : Reg) (s : State) : Result :=
  .next (advance2 (writeFlagged x (getV s x >>> 1) (shiftRightOut (getV s x)) s))

/-- SUBN VX, VY: V[Y] - V[X] with not-borrow (R141). -/
def execSubnReg (x y : Reg) (s : State) : Result :=
  .next (advance2 (writeFlagged x (getV s y - getV s x) (noBorrowFlag (getV s y) (getV s x)) s))

/-- SHL VX; `y` is ignored (R142). -/
def execShl (x _y : Reg) (s : State) : Result :=
  .next (advance2 (writeFlagged x (getV s x <<< 1) (shiftLeftOut (getV s x)) s))

/-- RND VX, NN: one drawn byte under a mask (R143). -/
def execRnd (x : Reg) (nn : Byte) (s : State) : Result :=
  .next (advance2 (setV x (nextRandom s &&& nn) (consumeRandom s)))

end Sys2Proof.Machine
end

