-- ==== Sys2Proof/Syntax.lean ====
section
/-! DEFINITION. The 35 instructions (30_encoding.md R85), one constructor per row of the opcode table, in its order. -/

namespace Sys2Proof

/-- An instruction with its fields (R81): `x`, `y` name registers, `nnn`, `nn`, `n` are the immediates. -/
inductive Instr where
  /-- 0NNN, SYS NNN (R110). -/
  | sys (nnn : Addr12)
  /-- 00E0, CLS (R181). -/
  | cls
  /-- 00EE, RET (R111). -/
  | ret
  /-- 1NNN, JP NNN (R112). -/
  | jp (nnn : Addr12)
  /-- 2NNN, CALL NNN (R113). -/
  | call (nnn : Addr12)
  /-- 3XNN, SE VX, NN (R114). -/
  | seImm (x : Reg) (nn : Byte)
  /-- 4XNN, SNE VX, NN (R115). -/
  | sneImm (x : Reg) (nn : Byte)
  /-- 5XY0, SE VX, VY (R116). -/
  | seReg (x y : Reg)
  /-- 6XNN, LD VX, NN (R132). -/
  | ldImm (x : Reg) (nn : Byte)
  /-- 7XNN, ADD VX, NN (R133). -/
  | addImm (x : Reg) (nn : Byte)
  /-- 8XY0, LD VX, VY (R134). -/
  | ldReg (x y : Reg)
  /-- 8XY1, OR VX, VY (R135). -/
  | orReg (x y : Reg)
  /-- 8XY2, AND VX, VY (R136). -/
  | andReg (x y : Reg)
  /-- 8XY3, XOR VX, VY (R137). -/
  | xorReg (x y : Reg)
  /-- 8XY4, ADD VX, VY (R138). -/
  | addReg (x y : Reg)
  /-- 8XY5, SUB VX, VY (R139). -/
  | subReg (x y : Reg)
  /-- 8XY6, SHR VX; `y` is encoded and ignored (R140). -/
  | shr (x y : Reg)
  /-- 8XY7, SUBN VX, VY (R141). -/
  | subnReg (x y : Reg)
  /-- 8XYE, SHL VX; `y` is encoded and ignored (R142). -/
  | shl (x y : Reg)
  /-- 9XY0, SNE VX, VY (R117). -/
  | sneReg (x y : Reg)
  /-- ANNN, LD I, NNN (R161). -/
  | ldI (nnn : Addr12)
  /-- BNNN, JP V0, NNN (R118). -/
  | jpV0 (nnn : Addr12)
  /-- CXNN, RND VX, NN (R143). -/
  | rnd (x : Reg) (nn : Byte)
  /-- DXYN, DRW VX, VY, N (R182). -/
  | drw (x y : Reg) (n : Nibble)
  /-- EX9E, SKP VX (R201). -/
  | skp (x : Reg)
  /-- EXA1, SKNP VX (R202). -/
  | sknp (x : Reg)
  /-- FX07, LD VX, DT (R203). -/
  | ldVxDt (x : Reg)
  /-- FX0A, LD VX, K (R204). -/
  | ldVxK (x : Reg)
  /-- FX15, LD DT, VX (R205). -/
  | ldDtVx (x : Reg)
  /-- FX18, LD ST, VX (R206). -/
  | ldStVx (x : Reg)
  /-- FX1E, ADD I, VX (R162). -/
  | addI (x : Reg)
  /-- FX29, LD F, VX (R163). -/
  | ldF (x : Reg)
  /-- FX33, LD B, VX (R164). -/
  | ldB (x : Reg)
  /-- FX55, LD [I], VX (R165). -/
  | storeRegs (x : Reg)
  /-- FX65, LD VX, [I] (R166). -/
  | loadRegs (x : Reg)
deriving DecidableEq, Repr

end Sys2Proof
end

