-- ==== Sys2Proof/WellFormed.lean ====
section
/-! DEFINITION. Which instructions have a word: the fields' types hold all of R81, and R85 row 1 leaves two operands
of SYS out, because the words 00E0 and 00EE are CLS and RET. -/

namespace Sys2Proof

/-- The check on SYS's operand (R85 row 1: `0NNN` with NNN ≠ 0E0, 0EE). -/
def sysOperandOk (nnn : Addr12) : Bool :=
  nnn != 0x0E0 && nnn != 0x0EE

/-- An instruction that some word decodes to. -/
def wellFormed : Instr → Bool
  | .sys nnn => sysOperandOk nnn
  | .cls | .ret | .jp _ | .call _ | .seImm _ _ | .sneImm _ _ | .seReg _ _ | .ldImm _ _ | .addImm _ _ => true
  | .ldReg _ _ | .orReg _ _ | .andReg _ _ | .xorReg _ _ | .addReg _ _ | .subReg _ _ | .shr _ _ => true
  | .subnReg _ _ | .shl _ _ | .sneReg _ _ | .ldI _ | .jpV0 _ | .rnd _ _ | .drw _ _ _ => true
  | .skp _ | .sknp _ | .ldVxDt _ | .ldVxK _ | .ldDtVx _ | .ldStVx _ | .addI _ | .ldF _ | .ldB _ => true
  | .storeRegs _ | .loadRegs _ => true

end Sys2Proof
end

