-- ==== Sys2Proof/Decode.lean ====
section
/-! DEFINITION. The decoder (30_encoding.md R80 to R87), total on any bytes, and the encoder written from the same
table, with the table itself (R85). -/

namespace Sys2Proof

/-- Why bytes are no instruction. -/
inductive DecodeError where
  /-- The word matches no row of R85 (R87). -/
  | unsupportedOpcode
  /-- Fewer than two bytes (R80: an instruction is always 2 bytes). -/
  | truncated
deriving DecidableEq, Repr

/-! ## Fields of the word (R81) -/

def fieldOp (w : Word) : Nibble := w.extractLsb' 12 4
def fieldX (w : Word) : Reg := (w.extractLsb' 8 4).toFin
def fieldY (w : Word) : Reg := (w.extractLsb' 4 4).toFin
def fieldN (w : Word) : Nibble := w.extractLsb' 0 4
def fieldNN (w : Word) : Byte := w.extractLsb' 0 8
def fieldNNN (w : Word) : Addr12 := w.extractLsb' 0 12

/-! ## Decoding -/

/-- Family 0 (R86): 00E0 and 00EE exactly, every other word is SYS. -/
def decode0 (w : Word) : Instr :=
  if w = 0x00E0 then .cls else if w = 0x00EE then .ret else .sys (fieldNNN w)

/-- Family 8 (R86): nine instructions selected by `N`. -/
def decode8 (w : Word) : Except DecodeError Instr :=
  match (fieldN w).toNat with
  | 0x0 => .ok (.ldReg (fieldX w) (fieldY w))
  | 0x1 => .ok (.orReg (fieldX w) (fieldY w))
  | 0x2 => .ok (.andReg (fieldX w) (fieldY w))
  | 0x3 => .ok (.xorReg (fieldX w) (fieldY w))
  | 0x4 => .ok (.addReg (fieldX w) (fieldY w))
  | 0x5 => .ok (.subReg (fieldX w) (fieldY w))
  | 0x6 => .ok (.shr (fieldX w) (fieldY w))
  | 0x7 => .ok (.subnReg (fieldX w) (fieldY w))
  | 0xE => .ok (.shl (fieldX w) (fieldY w))
  | _ => .error .unsupportedOpcode

/-- Family E (R86): two instructions selected by `NN`. -/
def decodeE (w : Word) : Except DecodeError Instr :=
  match (fieldNN w).toNat with
  | 0x9E => .ok (.skp (fieldX w))
  | 0xA1 => .ok (.sknp (fieldX w))
  | _ => .error .unsupportedOpcode

/-- Family F (R86): nine instructions selected by `NN`. -/
def decodeF (w : Word) : Except DecodeError Instr :=
  match (fieldNN w).toNat with
  | 0x07 => .ok (.ldVxDt (fieldX w))
  | 0x0A => .ok (.ldVxK (fieldX w))
  | 0x15 => .ok (.ldDtVx (fieldX w))
  | 0x18 => .ok (.ldStVx (fieldX w))
  | 0x1E => .ok (.addI (fieldX w))
  | 0x29 => .ok (.ldF (fieldX w))
  | 0x33 => .ok (.ldB (fieldX w))
  | 0x55 => .ok (.storeRegs (fieldX w))
  | 0x65 => .ok (.loadRegs (fieldX w))
  | _ => .error .unsupportedOpcode

/-- The pure decoder of R84: the family nibble selects first, then the family's own sub-selection (R86). -/
def decode (w : Word) : Except DecodeError Instr :=
  match (fieldOp w).toNat with
  | 0x0 => .ok (decode0 w)
  | 0x1 => .ok (.jp (fieldNNN w))
  | 0x2 => .ok (.call (fieldNNN w))
  | 0x3 => .ok (.seImm (fieldX w) (fieldNN w))
  | 0x4 => .ok (.sneImm (fieldX w) (fieldNN w))
  | 0x5 => if fieldN w = 0 then .ok (.seReg (fieldX w) (fieldY w)) else .error .unsupportedOpcode
  | 0x6 => .ok (.ldImm (fieldX w) (fieldNN w))
  | 0x7 => .ok (.addImm (fieldX w) (fieldNN w))
  | 0x8 => decode8 w
  | 0x9 => if fieldN w = 0 then .ok (.sneReg (fieldX w) (fieldY w)) else .error .unsupportedOpcode
  | 0xA => .ok (.ldI (fieldNNN w))
  | 0xB => .ok (.jpV0 (fieldNNN w))
  | 0xC => .ok (.rnd (fieldX w) (fieldNN w))
  | 0xD => .ok (.drw (fieldX w) (fieldY w) (fieldN w))
  | 0xE => decodeE w
  | 0xF => decodeF w
  | _ => .error .unsupportedOpcode

/-! ## Bytes (R66: big-endian, the high byte at the lower address) -/

def wordOfBytes (hi lo : Byte) : Word := hi ++ lo
def highByte (w : Word) : Byte := w.extractLsb' 8 8
def lowByte (w : Word) : Byte := w.extractLsb' 0 8

/-- Decode the first instruction of a byte sequence and give the rest back. -/
def decodeBytes : List Byte → Except DecodeError (Instr × List Byte)
  | hi :: lo :: rest =>
    match decode (wordOfBytes hi lo) with
    | .ok i => .ok (i, rest)
    | .error e => .error e
  | [_] => .error .truncated
  | [] => .error .truncated

/-! ## Encoding, by the formats of R82 -/

def formatNNN (op : Nat) (nnn : Addr12) : Word :=
  BitVec.ofNat 16 (op * 0x1000 + nnn.toNat)

/-- Formats XNN and X: for X the low byte is fixed. -/
def formatXNN (op : Nat) (x : Reg) (nn : Byte) : Word :=
  BitVec.ofNat 16 (op * 0x1000 + x.val * 0x100 + nn.toNat)

/-- Formats XYN and XY: for XY the low nibble is fixed. -/
def formatXYN (op : Nat) (x y : Reg) (n : Nibble) : Word :=
  BitVec.ofNat 16 (op * 0x1000 + x.val * 0x100 + y.val * 0x10 + n.toNat)

/-- The word of an instruction (R85). -/
def encode : Instr → Word
  | .sys nnn => formatNNN 0x0 nnn
  | .cls => 0x00E0
  | .ret => 0x00EE
  | .jp nnn => formatNNN 0x1 nnn
  | .call nnn => formatNNN 0x2 nnn
  | .seImm x nn => formatXNN 0x3 x nn
  | .sneImm x nn => formatXNN 0x4 x nn
  | .seReg x y => formatXYN 0x5 x y 0x0
  | .ldImm x nn => formatXNN 0x6 x nn
  | .addImm x nn => formatXNN 0x7 x nn
  | .ldReg x y => formatXYN 0x8 x y 0x0
  | .orReg x y => formatXYN 0x8 x y 0x1
  | .andReg x y => formatXYN 0x8 x y 0x2
  | .xorReg x y => formatXYN 0x8 x y 0x3
  | .addReg x y => formatXYN 0x8 x y 0x4
  | .subReg x y => formatXYN 0x8 x y 0x5
  | .shr x y => formatXYN 0x8 x y 0x6
  | .subnReg x y => formatXYN 0x8 x y 0x7
  | .shl x y => formatXYN 0x8 x y 0xE
  | .sneReg x y => formatXYN 0x9 x y 0x0
  | .ldI nnn => formatNNN 0xA nnn
  | .jpV0 nnn => formatNNN 0xB nnn
  | .rnd x nn => formatXNN 0xC x nn
  | .drw x y n => formatXYN 0xD x y n
  | .skp x => formatXNN 0xE x 0x9E
  | .sknp x => formatXNN 0xE x 0xA1
  | .ldVxDt x => formatXNN 0xF x 0x07
  | .ldVxK x => formatXNN 0xF x 0x0A
  | .ldDtVx x => formatXNN 0xF x 0x15
  | .ldStVx x => formatXNN 0xF x 0x18
  | .addI x => formatXNN 0xF x 0x1E
  | .ldF x => formatXNN 0xF x 0x29
  | .ldB x => formatXNN 0xF x 0x33
  | .storeRegs x => formatXNN 0xF x 0x55
  | .loadRegs x => formatXNN 0xF x 0x65

/-- The bytes of an instruction, in the order memory holds them (R66). -/
def encodeBytes (i : Instr) : List Byte := [highByte (encode i), lowByte (encode i)]

/-! ## The table of R85 -/

/-- One row's test: a word `w` matches when `w &&& mask = value`. -/
structure OpcodeRow where
  value : Word
  mask : Word
deriving DecidableEq, Repr

/-- The row an instruction stands in (R85, `match` and `mask`). -/
def opcodeRow : Instr → OpcodeRow
  | .sys _ => ⟨0x0000, 0xF000⟩
  | .cls => ⟨0x00E0, 0xFFFF⟩
  | .ret => ⟨0x00EE, 0xFFFF⟩
  | .jp _ => ⟨0x1000, 0xF000⟩
  | .call _ => ⟨0x2000, 0xF000⟩
  | .seImm _ _ => ⟨0x3000, 0xF000⟩
  | .sneImm _ _ => ⟨0x4000, 0xF000⟩
  | .seReg _ _ => ⟨0x5000, 0xF00F⟩
  | .ldImm _ _ => ⟨0x6000, 0xF000⟩
  | .addImm _ _ => ⟨0x7000, 0xF000⟩
  | .ldReg _ _ => ⟨0x8000, 0xF00F⟩
  | .orReg _ _ => ⟨0x8001, 0xF00F⟩
  | .andReg _ _ => ⟨0x8002, 0xF00F⟩
  | .xorReg _ _ => ⟨0x8003, 0xF00F⟩
  | .addReg _ _ => ⟨0x8004, 0xF00F⟩
  | .subReg _ _ => ⟨0x8005, 0xF00F⟩
  | .shr _ _ => ⟨0x8006, 0xF00F⟩
  | .subnReg _ _ => ⟨0x8007, 0xF00F⟩
  | .shl _ _ => ⟨0x800E, 0xF00F⟩
  | .sneReg _ _ => ⟨0x9000, 0xF00F⟩
  | .ldI _ => ⟨0xA000, 0xF000⟩
  | .jpV0 _ => ⟨0xB000, 0xF000⟩
  | .rnd _ _ => ⟨0xC000, 0xF000⟩
  | .drw _ _ _ => ⟨0xD000, 0xF000⟩
  | .skp _ => ⟨0xE09E, 0xF0FF⟩
  | .sknp _ => ⟨0xE0A1, 0xF0FF⟩
  | .ldVxDt _ => ⟨0xF007, 0xF0FF⟩
  | .ldVxK _ => ⟨0xF00A, 0xF0FF⟩
  | .ldDtVx _ => ⟨0xF015, 0xF0FF⟩
  | .ldStVx _ => ⟨0xF018, 0xF0FF⟩
  | .addI _ => ⟨0xF01E, 0xF0FF⟩
  | .ldF _ => ⟨0xF029, 0xF0FF⟩
  | .ldB _ => ⟨0xF033, 0xF0FF⟩
  | .storeRegs _ => ⟨0xF055, 0xF0FF⟩
  | .loadRegs _ => ⟨0xF065, 0xF0FF⟩

/-- The test of one row. -/
def OpcodeRow.matchesWord (r : OpcodeRow) (w : Word) : Bool := w &&& r.mask == r.value

/-- The instruction the decoder reads from a word numbered as the opcode table numbers its bits: one 16-bit word, laid
out as memory holds it (R66). `nbits` is 16 for every row; a shorter word has zeros above. -/
def decodeTableWord (nbits w : Nat) : Option Instr :=
  let word := BitVec.ofNat 16 (w % 2 ^ nbits)
  match decodeBytes [highByte word, lowByte word] with
  | .ok (i, _) => some i
  | .error _ => none

end Sys2Proof
end

