-- ==== Sys2Proof/Machine/Operands.lean ====
section
/-! DEFINITION. Every operand form: immediates (30_encoding.md R83), data addresses and their checks (20_memory.md R64,
R65; 42_index_memory.md R160), key numbers (44_input_timers.md R200) and font digits (42_index_memory.md R163). -/

namespace Sys2Proof.Machine

/-- `zext_16(NNN)` (R83). -/
def zextAddr (nnn : Addr12) : Word := nnn.setWidth 16

/-- `zext_16(v)` of a byte (R83). -/
def zextByte (b : Byte) : Word := b.setWidth 16

/-- What an access does with the byte (R62). -/
inductive Access where
  | read
  | write
deriving DecidableEq, Repr

/-- R64: an address above 0xFFF faults or is masked to 12 bits. -/
def checkRange (cfg : Config) (a : Nat) : Except FaultKind Nat :=
  if a ≤ 0xFFF then .ok a
  else match cfg.addrPolicy with
    | .fault => .error .addressOutOfRange
    | .mask12 => .ok (a % memSize)

/-- R65: a write into the reserved region faults or is let through. -/
def checkReserved (cfg : Config) (a : Nat) : Except FaultKind Nat :=
  if a ≤ reservedTop then
    match cfg.reservedWritePolicy with
    | .fault => .error .reservedWrite
    | .allow => .ok a
  else .ok a

/-- `CheckAddr(a, access)`: R64 for reads, R64 then R65 for writes. -/
def checkAddr (cfg : Config) (acc : Access) (a : Nat) : Except FaultKind Nat :=
  match checkRange cfg a with
  | .error k => .error k
  | .ok a' =>
    match acc with
    | .read => .ok a'
    | .write => checkReserved cfg a'

/-- The checks of `n` bytes from `base` on, in ascending order; the first that fails decides (R160). -/
def checkBlock (cfg : Config) (acc : Access) : Nat → Nat → Except FaultKind (List Nat)
  | _, 0 => .ok []
  | base, n + 1 =>
    match checkAddr cfg acc base with
    | .error k => .error k
    | .ok a =>
      match checkBlock cfg acc (base + 1) n with
      | .error k => .error k
      | .ok as => .ok (a :: as)

/-- The checked addresses I, I+1, …, I+n-1, computed without truncation (R160, R64). -/
def dataBlock (s : State) (acc : Access) (n : Nat) : Except FaultKind (List Nat) :=
  checkBlock s.cfg acc s.index.toNat n

/-- The low nibble of a byte as a number 0 to 15. -/
def lowNibble (b : Byte) : Fin 16 := Fin.ofNat 16 b.toNat

/-- A byte that must be 0 to 15, under a digit policy with its fault kind. -/
def digitOf (p : DigitPolicy) (k : FaultKind) (b : Byte) : Except FaultKind (Fin 16) :=
  if b.toNat ≤ 0xF then .ok (lowNibble b)
  else match p with
    | .fault => .error k
    | .lowNibble => .ok (lowNibble b)

/-- `KeyIndex(v)` (R200). -/
def keyIndex (cfg : Config) (b : Byte) : Except FaultKind Key :=
  digitOf cfg.keyIndexPolicy .keyIndexOutOfRange b

/-- The digit of FX29 (R163). -/
def fontDigit (cfg : Config) (b : Byte) : Except FaultKind (Fin 16) :=
  digitOf cfg.fontDigitPolicy .fontDigitOutOfRange b

/-- The address of a digit's sprite, `FONT_BASE + 5 * d` (R163). -/
def fontAddr (d : Fin 16) : Word := BitVec.ofNat 16 (fontBase + 5 * d.val)

/-- The three decimal digits of a byte, hundreds first (42_index_memory.md R164). -/
def bcdDigits (b : Byte) : List Byte :=
  [BitVec.ofNat 8 (b.toNat / 100), BitVec.ofNat 8 (b.toNat / 10 % 10), BitVec.ofNat 8 (b.toNat % 10)]

end Sys2Proof.Machine
end

