-- ==== Sys2Proof/Machine/Control.lean ====
section
/-! DEFINITION. The control-transfer instructions (40_control_flow.md R110 to R118). A fault's word is the
instruction's own word, `encode` of it (log 11). -/

namespace Sys2Proof.Machine

/-- SYS NNN (R110). -/
def execSys (nnn : Addr12) (s : State) : Result :=
  match s.cfg.sysPolicy with
  | .fault => raise .unsupportedOpcode (some (encode (.sys nnn))) s
  | .nop => .next (advance2 s)

/-- RET (R111). -/
def execRet (s : State) : Result :=
  match popReturn s with
  | .error k => raise k (some (encode .ret)) s
  | .ok (a, s') => .next (jumpTo a s')

/-- JP NNN (R112). -/
def execJp (nnn : Addr12) (s : State) : Result :=
  .next (jumpTo (zextAddr nnn) s)

/-- CALL NNN (R113). -/
def execCall (nnn : Addr12) (s : State) : Result :=
  match pushReturn (s.pc + 2) s with
  | .error k => raise k (some (encode (.call nnn))) s
  | .ok s' => .next (jumpTo (zextAddr nnn) s')

/-- SE VX, NN (R114). -/
def execSeImm (x : Reg) (nn : Byte) (s : State) : Result :=
  .next (skipIf (getV s x == nn) s)

/-- SNE VX, NN (R115). -/
def execSneImm (x : Reg) (nn : Byte) (s : State) : Result :=
  .next (skipIf (getV s x != nn) s)

/-- SE VX, VY (R116). -/
def execSeReg (x y : Reg) (s : State) : Result :=
  .next (skipIf (getV s x == getV s y) s)

/-- SNE VX, VY (R117). -/
def execSneReg (x y : Reg) (s : State) : Result :=
  .next (skipIf (getV s x != getV s y) s)

/-- JP V0, NNN (R118). -/
def execJpV0 (nnn : Addr12) (s : State) : Result :=
  .next (jumpTo (zextAddr nnn + zextByte (getV s 0)) s)

end Sys2Proof.Machine
end

