-- ==== Sys2Proof/Machine/Draw.lean ====
section
/-! DEFINITION. The display instructions (43_display.md R181, R182). -/

namespace Sys2Proof.Machine

/-- CLS (R181). -/
def execCls (s : State) : Result :=
  .next (advance2 { s with disp := Display.clear })

/-- The state after a sprite is drawn: the buffer, then VF (R182). -/
def drawAt (x0 y0 : Nat) (sprite : List Byte) (s : State) : State :=
  let r := drawSprite s.disp x0 y0 sprite
  setV VF (flagByte r.2) { s with disp := r.1 }

/-- DRW VX, VY, N: the coordinates are read before VF is written, the addresses checked before any pixel changes
(R182). -/
def execDrw (x y : Reg) (n : Nibble) (s : State) : Result :=
  match dataBlock s .read n.toNat with
  | .error k => raise k (some (encode (.drw x y n))) s
  | .ok as => .next (advance2 (drawAt (getV s x).toNat (getV s y).toNat (readAll s as) s))

end Sys2Proof.Machine
end

