-- ==== Sys2Proof/Machine/IndexMemory.lean ====
section
/-! DEFINITION. Index register and memory instructions (42_index_memory.md R161 to R166). All checks come before any
write (R160, 00_scope.md R11). -/

namespace Sys2Proof.Machine

/-- LD I, NNN (R161). -/
def execLdI (nnn : Addr12) (s : State) : Result :=
  .next (advance2 (setIndex (zextAddr nnn) s))

/-- ADD I, VX: modulo 2^16, no flag (R162). -/
def execAddI (x : Reg) (s : State) : Result :=
  .next (advance2 (setIndex (s.index + zextByte (getV s x)) s))

/-- LD F, VX (R163). -/
def execLdF (x : Reg) (s : State) : Result :=
  match fontDigit s.cfg (getV s x) with
  | .error k => raise k (some (encode (.ldF x))) s
  | .ok d => .next (advance2 (setIndex (fontAddr d) s))

/-- LD B, VX (R164). -/
def execLdB (x : Reg) (s : State) : Result :=
  match dataBlock s .write 3 with
  | .error k => raise k (some (encode (.ldB x))) s
  | .ok as => .next (advance2 (storeAll as (bcdDigits (getV s x)) s))

/-- LD [I], VX: store V0 to VX (R165). -/
def execStoreRegs (x : Reg) (s : State) : Result :=
  match dataBlock s .write (x.val + 1) with
  | .error k => raise k (some (encode (.storeRegs x))) s
  | .ok as => .next (advance2 (incrementIndex x (storeAll as (firstRegs s (x.val + 1)) s)))

/-- LD VX, [I]: load V0 to VX (R166). -/
def execLoadRegs (x : Reg) (s : State) : Result :=
  match dataBlock s .read (x.val + 1) with
  | .error k => raise k (some (encode (.loadRegs x))) s
  | .ok as => .next (advance2 (incrementIndex x (loadFrom 0 (readAll s as) s)))

end Sys2Proof.Machine
end

