-- ==== Sys2Proof/Machine/InputTimers.lean ====
section
/-! DEFINITION. Key input and timer instructions (44_input_timers.md R201 to R206). -/

namespace Sys2Proof.Machine

/-- SKP VX (R201). -/
def execSkp (x : Reg) (s : State) : Result :=
  match keyIndex s.cfg (getV s x) with
  | .error k => raise k (some (encode (.skp x))) s
  | .ok k => .next (skipIf s.key[k] s)

/-- SKNP VX (R202). -/
def execSknp (x : Reg) (s : State) : Result :=
  match keyIndex s.cfg (getV s x) with
  | .error k => raise k (some (encode (.sknp x))) s
  | .ok k => .next (skipIf (!s.key[k]) s)

/-- LD VX, DT (R203). -/
def execLdVxDt (x : Reg) (s : State) : Result :=
  .next (advance2 (setV x s.dt s))

/-- LD VX, K: begin to wait; `pc` is not changed (R204). -/
def execLdVxK (x : Reg) (s : State) : Result :=
  .next { s with run := .awaitingKey, waitReg := x }

/-- LD DT, VX (R205). -/
def execLdDtVx (x : Reg) (s : State) : Result :=
  .next (advance2 { s with dt := getV s x })

/-- LD ST, VX (R206). -/
def execLdStVx (x : Reg) (s : State) : Result :=
  .next (advance2 { s with st := getV s x })

end Sys2Proof.Machine
end

