-- ==== Sys2Proof/Machine/Transactions.lean ====
section
/-! DEFINITION. The transactions of the host interface (60_exceptions.md R240 to R248): the CPU tick with the fetch
(20_memory.md R63, 40_control_flow.md R100), the timer tick, the key event, the loads and the reads. -/

namespace Sys2Proof.Machine

/-! ## The CPU tick -/

/-- `Fetch()` (R63): the big-endian word at `pc`, after the alignment check and the range check. -/
def fetch (s : State) : Except FaultKind Word :=
  if s.cfg.alignPolicy = .fault ∧ s.pc.toNat % 2 = 1 then .error .pcMisaligned
  else if s.cfg.addrPolicy = .fault ∧ s.pc.toNat > 0xFFE then .error .addressOutOfRange
  else .ok (wordOfBytes (Memory.read s.mem (s.pc.toNat % memSize)) (Memory.read s.mem ((s.pc.toNat + 1) % memSize)))

/-- Fetch, decode and execute one instruction (R100). -/
def fetchDecodeExecute (s : State) : Result :=
  match fetch s with
  | .error k => raise k none s
  | .ok w =>
    match decode w with
    | .error _ => raise .unsupportedOpcode (some w) s
    | .ok i => exec i s

/-- `cpu_tick()` (R240, R100): nothing happens before the core is started (R265), after a fault (R222) or while it
waits for a key (R102). -/
def cpuTick (s : State) : Result :=
  match s.boot with
  | .afterReset => .next s
  | .fontLoaded => .next s
  | .loadTooLarge => .next s
  | .started =>
    match s.fault with
    | some _ => .next s
    | none =>
      match s.run with
      | .awaitingKey => .next s
      | .running => fetchDecodeExecute s

/-! ## The timer tick -/

/-- A timer counts down to 0 and stays there (R210). -/
def countDown (t : Byte) : Byte := if t.toNat > 0 then t - 1 else t

/-- `timer_tick()` (R241, R210): nothing happens before the core is started (R265) or after a fault (R222). -/
def timerTick (s : State) : State :=
  match s.boot with
  | .afterReset => s
  | .fontLoaded => s
  | .loadTooLarge => s
  | .started =>
    match s.fault with
    | some _ => s
    | none => { s with dt := countDown s.dt, st := countDown s.st }

/-! ## The key event -/

/-- The byte of a key number. -/
def keyByte (k : Key) : Byte := BitVec.ofNat 8 k.val

/-- The completion of a key wait (R207). -/
def completeWait (k : Key) (s : State) : State :=
  { advance2 (setV s.waitReg (keyByte k) s) with run := .running }

/-- `key_event(k, p)` (R242, R207): the latch, and on a press edge the completion of a pending wait. -/
def keyEvent (k : Key) (p : Bool) (s : State) : State :=
  let edge := p && !s.key[k]
  let s1 := { s with key := s.key.set k.val p k.isLt }
  if s.fault = none ∧ s.run = .awaitingKey ∧ edge = true then completeWait k s1 else s1

/-! ## The loads (70_reset_and_hazards.md R263 to R265) -/

/-- The 80 bytes of the font, digit 0 first. -/
def fontBytes (cfg : Config) : List Byte := cfg.font.toList.flatMap Vector.toList

/-- `load_font()` (R243, R263). -/
def loadFont (s : State) : State :=
  { s with mem := Memory.writeBlock s.mem fontBase (fontBytes s.cfg), boot := .fontLoaded }

/-- What `load_program` returns (R264). -/
inductive LoadResult where
  | ok
  | loadTooLarge
deriving DecidableEq, Repr

/-- `load_program(bytes)` (R244, R264): a program that does not fit leaves memory unchanged and the core never starts;
any other is copied to 0x200 and starts it (R265). -/
def loadProgram (bytes : List Byte) (s : State) : LoadResult × State :=
  if bytes.length > progMax then (.loadTooLarge, { s with boot := .loadTooLarge })
  else (.ok, { s with mem := Memory.writeBlock s.mem progBase bytes, boot := .started })

/-! ## Reads: functions of the state (10_state.md R40) -/

/-- Display read (R245): the 2048 pixels, row-major (10_state.md R33). -/
def displayRead (s : State) : List Bool := s.disp.toList.flatMap Vector.toList

/-- Tone output (R247, 10_state.md R32). -/
def toneOutput (s : State) : Bool := decide (s.st.toNat > 0)

/-- The 4-bit code of a fault kind (R221). -/
def FaultKind.code : FaultKind → BitVec 4
  | .unsupportedOpcode => 0x1
  | .stackOverflow => 0x2
  | .stackUnderflow => 0x3
  | .addressOutOfRange => 0x4
  | .pcMisaligned => 0x5
  | .reservedWrite => 0x6
  | .keyIndexOutOfRange => 0x7
  | .fontDigitOutOfRange => 0x8

/-- The 4-bit code of a load result: 0xF for `LoadTooLarge` (R221). DESIGN CHOICE: 0x0 for `ok`, which R264 gives no
number, while R221 keeps 0x0 unused as a fault kind (log 24). -/
def LoadResult.code : LoadResult → BitVec 4
  | .ok => 0x0
  | .loadTooLarge => 0xF

/-- The status word the host reads (10_state.md R38), with `pc` (R248); a field the spec leaves unspecified in a state
is absent in it (log 18). -/
structure StatusView where
  run : BitVec 1
  waitReg : Option (BitVec 4)
  faultValid : BitVec 1
  faultKind : Option (BitVec 4)
  faultAddr : Option Word
  faultWordValid : Option (BitVec 1)
  faultWord : Option Word
  pc : Word
deriving DecidableEq, Repr

/-- Status read (R248, R38). -/
def statusRead (s : State) : StatusView where
  run := if s.run = .awaitingKey then 1 else 0
  waitReg := if s.run = .awaitingKey then some (BitVec.ofNat 4 s.waitReg.val) else none
  faultValid := if s.fault.isSome then 1 else 0
  faultKind := s.fault.map fun r => FaultKind.code r.kind
  faultAddr := s.fault.map fun r => r.addr
  faultWordValid := s.fault.map fun r => if r.word.isSome then 1 else 0
  faultWord := s.fault.bind fun r => r.word
  pc := s.pc

/-! ## One transaction -/

/-- Perform one transaction (R249). A load out of the boot order of R265 is refused by name (log 12); a read changes
no state. -/
def perform (t : Transaction) (s : State) : Result :=
  match t with
  | .cpuTick => cpuTick s
  | .timerTick => .next (timerTick s)
  | .keyEvent k p => .next (keyEvent k p s)
  | .loadFont => if s.boot = .afterReset then .next (loadFont s) else .refused .loadNotEnabled
  | .loadProgram bytes => if s.boot = .fontLoaded then .next (loadProgram bytes s).2 else .refused .loadNotEnabled
  | .displayRead => .next s
  | .toneRead => .next s
  | .statusRead => .next s

/-- Take the next transaction off the host's list and perform it; a CPU tick when the list is empty (log 2). -/
def performNext (s : State) : Result :=
  match s.pending with
  | [] => cpuTick s
  | t :: rest => perform t { s with pending := rest }

/-! ## Placing one instruction (log 13) -/

/-- Whether a fetch from this `pc` passes the checks of R63. -/
def fetchable (s : State) : Bool :=
  match fetch s with
  | .ok _ => true
  | .error _ => false

/-- Store a word where the next CPU tick fetches and make that tick the next transaction of a started, running core:
this stands for the load of a program. A `pc` that cannot be fetched from is set to `PROG_BASE` first (log 13). -/
def placeWord (word : Word) (s : State) : State :=
  let pc := if fetchable s then s.pc else BitVec.ofNat 16 progBase
  let m := Memory.write s.mem (pc.toNat % memSize) (highByte word)
  { s with
    pc := pc
    mem := Memory.write m ((pc.toNat + 1) % memSize) (lowByte word)
    run := .running
    fault := none
    boot := .started
    pending := [] }

end Sys2Proof.Machine
end

