-- ==== Sys2Proof/Machine/Step.lean ====
section
/-! DEFINITION. One step: the next transaction (60_exceptions.md R249). -/

namespace Sys2Proof.Machine

/-- One step of the machine: one transaction of the host, atomic (00_scope.md R7). -/
def step (s : State) : Host.Outcome State Fault Refusal := performNext s

/-- `s` with an instruction's word where `step` fetches next. `nbits` is 16 for every row of the table. -/
def State.withFetchWord (s : State) (nbits w : Nat) : State :=
  placeWord (BitVec.ofNat 16 (w % 2 ^ nbits)) s

end Sys2Proof.Machine
end

