-- ==== Sys2Proof/Safety.lean ====
section
/-! DEFINITION. The terms the claims are stated in: which addresses an access may use, which pixels a sprite covers,
which states the core can be in, and what a safe run is. -/

namespace Sys2Proof.Machine

/-! ## Data addresses (20_memory.md R64, R65) -/

/-- The memory byte an address names once it has passed the checks: itself, or its low 12 bits under `mask12` (R64). -/
def byteAddr (a : Nat) : Nat := a % memSize

/-- An address passes R64: at most 0xFFF, or masked. -/
def inRange (cfg : Config) (a : Nat) : Prop := a ≤ 0xFFF ∨ cfg.addrPolicy = .mask12

/-- An address passes R65: outside the reserved region, or the region may be written. -/
def mayWrite (cfg : Config) (a : Nat) : Prop := byteAddr a > 0x1FF ∨ cfg.reservedWritePolicy = .allow

/-- An address passes the checks of an access: R64, and R65 for a write. -/
def allowed (cfg : Config) (acc : Access) (a : Nat) : Prop :=
  inRange cfg a ∧ (acc = .write → mayWrite cfg a)

/-- The fault of an address that does not pass: R64 comes before R65 (60_exceptions.md R224). -/
def addrFault (cfg : Config) (a : Nat) : FaultKind :=
  if a > 0xFFF ∧ cfg.addrPolicy = .fault then .addressOutOfRange else .reservedWrite

/-- The `n` addresses I, I+1, … all pass the checks of an access (42_index_memory.md R160). -/
def blockAllowed (s : State) (acc : Access) (n : Nat) : Prop :=
  ∀ k < n, allowed s.cfg acc (s.index.toNat + k)

/-- The memory byte of block offset `k`: I + k (R160). -/
def blockAddr (s : State) (k : Nat) : Nat := byteAddr (s.index.toNat + k)

/-! ## Sprites (43_display.md R180) -/

/-- How far right of column `x0` the column `x` lies, around the edge. -/
def columnOffset (x0 : Nat) (x : Fin 64) : Nat := (x.val + 64 - x0 % 64) % 64

/-- How far below row `y0` the row `y` lies, around the edge. -/
def rowOffset (y0 : Nat) (y : Fin 32) : Nat := (y.val + 32 - y0 % 32) % 32

/-- Whether the sprite drawn at `(x0, y0)` has a set bit on the pixel `(x, y)`. -/
def spriteCovers (sprite : List Byte) (x0 y0 : Nat) (x : Fin 64) (y : Fin 32) : Bool :=
  decide (columnOffset x0 x < 8) &&
    match sprite[rowOffset y0 y]? with
    | some b => spriteBit b (columnOffset x0 x)
    | none => false

/-- The sprite DXYN draws in a state: the bytes at I, I+1, …, I+N-1 (R182). -/
def spriteBytes (s : State) (n : Nibble) : List Byte :=
  (List.range n.toNat).map fun k => Memory.read s.mem (blockAddr s k)

/-! ## The states of the core -/

/-- The core executes instructions: started (R265), no fault recorded (R222), not waiting for a key (R35). -/
def executing (s : State) : Prop := s.boot = .started ∧ s.fault = none ∧ s.run = .running

/-- The next transaction of the host is a CPU tick; `rest` is what follows it. -/
def nextIsCpuTick (s : State) (rest : List Transaction) : Prop :=
  s.pending = .cpuTick :: rest ∨ (s.pending = [] ∧ rest = [])

/-- The state in which a step performs its transaction: the transaction is off the host's list (log 2). -/
def taken (s : State) : State := { s with pending := s.pending.tail }

/-- A transaction that can neither complete a key wait nor load anything. -/
def keepsWaiting : Transaction → Prop
  | .cpuTick => True
  | .timerTick => True
  | .keyEvent _ pressed => pressed = false
  | .loadFont => False
  | .loadProgram _ => False
  | .displayRead => True
  | .toneRead => True
  | .statusRead => True

/-- A run is safe while no fault is recorded: a run is over when, and only when, one is (70_reset_and_hazards.md R267). -/
def safe (s : State) : Prop := s.fault = none

/-- How the status of the core hangs together in every state a run reaches: before the start the core is Running with no
fault (R265); while it waits for a key no fault is recorded and `pc` is at the FX0A it executed (R204); and a fault
record names the `pc` and what the fetch there gives (R222, R223). -/
structure StatusInv (s : State) : Prop where
  notStarted : s.boot ≠ .started → s.run = .running ∧ s.fault = none
  waiting : s.run = .awaitingKey → s.fault = none ∧ fetch s = .ok (encode (.ldVxK s.waitReg))
  recorded : ∀ r, s.fault = some r → s.run = .running ∧ r.addr = s.pc ∧
    fetch s = match r.word with
      | none => .error r.kind
      | some w => .ok w

/-! ## Tables about instructions -/

/-- The illegal words, bullet by bullet as R87 lists them. -/
def illegalWord (w : Word) : Prop :=
  let op := w.toNat / 0x1000
  let n := w.toNat % 0x10
  let nn := w.toNat % 0x100
  ((op = 0x5 ∨ op = 0x9) ∧ n ≠ 0) ∨
    (op = 0x8 ∧ n ∈ [0x8, 0x9, 0xA, 0xB, 0xC, 0xD, 0xF]) ∨
    (op = 0xE ∧ nn ∉ [0x9E, 0xA1]) ∨
    (op = 0xF ∧ nn ∉ [0x07, 0x0A, 0x15, 0x18, 0x1E, 0x29, 0x33, 0x55, 0x65])

/-- The faults an instruction may raise when it executes (60_exceptions.md R220, column "raised by"). -/
def faultsOf (i : Instr) : List FaultKind :=
  match i with
  | .sys _ => [.unsupportedOpcode]
  | .call _ => [.stackOverflow]
  | .ret => [.stackUnderflow]
  | .drw _ _ _ | .loadRegs _ => [.addressOutOfRange]
  | .ldB _ | .storeRegs _ => [.addressOutOfRange, .reservedWrite]
  | .skp _ | .sknp _ => [.keyIndexOutOfRange]
  | .ldF _ => [.fontDigitOutOfRange]
  | .cls | .jp _ | .seImm _ _ | .sneImm _ _ | .seReg _ _ | .ldImm _ _ | .addImm _ _ | .ldReg _ _ | .orReg _ _ => []
  | .andReg _ _ | .xorReg _ _ | .addReg _ _ | .subReg _ _ | .shr _ _ | .subnReg _ _ | .shl _ _ | .sneReg _ _ => []
  | .ldI _ | .jpV0 _ | .rnd _ _ | .ldVxDt _ | .ldVxK _ | .ldDtVx _ | .ldStVx _ | .addI _ => []

/-- Whether a general register is one an instruction writes when it executes: its destination (10_state.md R22), VF for
the flag writers (R21), V0 to VX for FX65. FX0A writes its register on completion only. -/
def writesReg (i : Instr) (r : Reg) : Prop :=
  match i with
  | .ldImm x _ | .addImm x _ | .ldReg x _ | .orReg x _ | .andReg x _ | .xorReg x _ | .rnd x _ | .ldVxDt x => r = x
  | .addReg x _ | .subReg x _ | .shr x _ | .subnReg x _ | .shl x _ => r = x ∨ r = VF
  | .drw _ _ _ => r = VF
  | .loadRegs x => r ≤ x
  | .sys _ | .cls | .ret | .jp _ | .call _ | .seImm _ _ | .sneImm _ _ | .seReg _ _ | .sneReg _ _ | .ldI _ => False
  | .jpV0 _ | .skp _ | .sknp _ | .ldVxK _ | .ldDtVx _ | .ldStVx _ | .addI _ | .ldF _ | .ldB _ | .storeRegs _ => False

/-- How many bytes an instruction stores, at I, I+1, … (42_index_memory.md R164, R165). -/
def storeCount (i : Instr) : Nat :=
  match i with
  | .ldB _ => 3
  | .storeRegs x => x.val + 1
  | .sys _ | .cls | .ret | .jp _ | .call _ | .seImm _ _ | .sneImm _ _ | .seReg _ _ | .sneReg _ _ | .ldImm _ _ => 0
  | .addImm _ _ | .ldReg _ _ | .orReg _ _ | .andReg _ _ | .xorReg _ _ | .addReg _ _ | .subReg _ _ | .shr _ _ => 0
  | .subnReg _ _ | .shl _ _ | .ldI _ | .jpV0 _ | .rnd _ _ | .drw _ _ _ | .skp _ | .sknp _ | .ldVxDt _ => 0
  | .ldVxK _ | .ldDtVx _ | .ldStVx _ | .addI _ | .ldF _ | .loadRegs _ => 0

/-! ## Nested calls -/

/-- Execute a CALL to each target in turn. -/
def execCalls : List Addr12 → State → Result
  | [], s => .next s
  | nnn :: rest, s =>
    match exec (.call nnn) s with
    | .next t => execCalls rest t
    | .fault r => .fault r
    | .refused r => .refused r

end Sys2Proof.Machine
end

