-- ==== Sys2Proof/Certificates/Slice0/Obligations.lean ====
section
/-! DEFINITION. The statements for the provers, from the numbered rules of spec/. They hold for every policy of
92_eei_decisions.md, since the policies stand in `State.cfg`. -/

open Sys2Proof Sys2Proof.Machine

/-! ## Encoding -/

/-- Decoding the word, or the bytes, of a well-formed instruction gives the instruction back (R84, R85). -/
def Obligations.DecodeEncodeRoundTrip : Prop :=
  ∀ (i : Instr) (rest : List Byte), wellFormed i = true →
    decode (encode i) = .ok i ∧ decodeBytes (encodeBytes i ++ rest) = .ok (i, rest)

/-- An instruction the decoder gives is well formed and its word is the word decoded: no bit of a word is dropped. -/
def Obligations.EncodeDecodeRoundTrip : Prop :=
  ∀ (w : Word) (i : Instr), decode w = .ok i → wellFormed i = true ∧ encode i = w

/-- R85: a word decodes to the row whose pattern it matches, 00E0 and 00EE before 0NNN, so to at most one row. -/
def Obligations.WordsDecodeToTheRowTheyMatch : Prop :=
  decode 0x00E0 = .ok .cls ∧ decode 0x00EE = .ok .ret ∧
    (∀ (w : Word) (i : Instr), decode w = .ok i → (opcodeRow i).matchesWord w = true) ∧
    ∀ (w : Word) (j : Instr), (opcodeRow j).matchesWord w = true →
      ∃ i, decode w = .ok i ∧ (opcodeRow i = opcodeRow j ∨ (opcodeRow j = ⟨0x0000, 0xF000⟩ ∧ (i = .cls ∨ i = .ret)))

/-- R87: the words of no row are exactly the listed ones, and the CPU tick that fetches one raises UnsupportedOpcode with
that word. -/
def Obligations.IllegalWordsAreUnsupported : Prop :=
  (∀ w : Word, decode w = .error .unsupportedOpcode ↔ illegalWord w) ∧
    ∀ (s : State) (w : Word), executing s → fetch s = .ok w → illegalWord w →
      perform .cpuTick s = .next { s with fault := some ⟨.unsupportedOpcode, s.pc, some w⟩ }

/-- One word of each format, written out from R82 and R85. -/
def Obligations.SampleWordsDecode : Prop :=
  decode 0b0000000011100000 = .ok .cls ∧
    decode 0b0010001000010000 = .ok (.call 0x210) ∧
    decode 0b0011001100010010 = .ok (.seImm 3 0x12) ∧
    decode 0b1000000100100101 = .ok (.subReg 1 2) ∧
    decode 0b1101000100100101 = .ok (.drw 1 2 5) ∧
    decode 0b1111001001100101 = .ok (.loadRegs 2) ∧
    decode 0b1110010110100001 = .ok (.sknp 5)

/-! ## The instruction cycle -/

/-- A step performs the host's next transaction, or a CPU tick when the host has listed none (the model's choice, log 2);
when the two bytes at `pc` decode to `i` and the fetch passes its checks, the CPU tick of an executing core is `exec i`,
with `pc` still the instruction's own address (R100, R101). -/
def Obligations.StepRunsTheDecodedInstruction : Prop :=
  (∀ (s : State) (t : Transaction) (rest : List Transaction), s.pending = t :: rest →
    step s = perform t { s with pending := rest }) ∧
  (∀ s : State, s.pending = [] → step s = perform .cpuTick s) ∧
  ∀ (s : State) (rest : List Transaction) (i : Instr), executing s → nextIsCpuTick s rest →
    (s.cfg.alignPolicy = .allow ∨ s.pc.toNat % 2 = 0) → (s.cfg.addrPolicy = .mask12 ∨ s.pc.toNat ≤ 0xFFE) →
    decodeBytes [Memory.read s.mem (byteAddr s.pc.toNat), Memory.read s.mem (byteAddr (s.pc.toNat + 1))] = .ok (i, []) →
    step s = exec i { s with pending := rest }

/-- R63: the alignment check, then the range check, each a fault with no word; otherwise the big-endian word at `pc`. -/
def Obligations.FetchChecksThenReadsBigEndian : Prop :=
  ∀ s : State,
    (s.cfg.alignPolicy = .fault → s.pc.toNat % 2 = 1 →
      fetch s = .error .pcMisaligned ∧
      (executing s → perform .cpuTick s = .next { s with fault := some ⟨.pcMisaligned, s.pc, none⟩ })) ∧
    ((s.cfg.alignPolicy = .allow ∨ s.pc.toNat % 2 = 0) → s.cfg.addrPolicy = .fault → s.pc.toNat > 0xFFE →
      fetch s = .error .addressOutOfRange ∧
      (executing s → perform .cpuTick s = .next { s with fault := some ⟨.addressOutOfRange, s.pc, none⟩ })) ∧
    ((s.cfg.alignPolicy = .allow ∨ s.pc.toNat % 2 = 0) → (s.cfg.addrPolicy = .mask12 ∨ s.pc.toNat ≤ 0xFFE) →
      ∃ w, fetch s = .ok w ∧ w.toNat = (Memory.read s.mem (s.pc.toNat % 4096)).toNat * 256 +
        (Memory.read s.mem ((s.pc.toNat + 1) % 4096)).toNat)

/-- After a fault no CPU tick and no timer tick changes any state, a key event updates the latch only, and no step, not
even a load, changes anything but the latch and the host's list (R222; the list is the model's, log 2). -/
def Obligations.HaltedCoreIsFrozen : Prop :=
  ∀ s : State, StatusInv s → s.fault ≠ none →
    perform .cpuTick s = .next s ∧ perform .timerTick s = .next s ∧
    (∀ k p, perform (.keyEvent k p) s = .next { s with key := s.key.set k.val p }) ∧
    ∀ t, step s = .next t → t = { s with pending := s.pending.tail, key := t.key }

/-- R102: a CPU tick while the core waits for a key changes no state. -/
def Obligations.WaitingCoreIgnoresCpuTicks : Prop :=
  ∀ s : State, s.run = .awaitingKey → perform .cpuTick s = .next s

/-- Faults are precise: a step that records a fault changes nothing but the record (and takes its transaction off the
host's list), the recorded address is the unchanged `pc`, and the recorded word is what the fetch there gave, or none
where the fetch itself faulted (R11, R222, R223). -/
def Obligations.FaultsArePrecise : Prop :=
  ∀ (s t : State) (r : FaultRecord), s.fault = none → step s = .next t → t.fault = some r →
    t = { s with pending := s.pending.tail, fault := some r } ∧ r.addr = s.pc ∧ executing s ∧
      fetch s = match r.word with
        | none => .error r.kind
        | some w => .ok w

/-- An executing instruction raises only the fault kinds that R220 gives it. -/
def Obligations.InstructionsRaiseOnlyTheirFaults : Prop :=
  ∀ (i : Instr) (s t : State) (r : FaultRecord), s.fault = none → exec i s = .next t → t.fault = some r →
    r.kind ∈ faultsOf i

/-! ## Control transfer -/

/-- R110: SYS raises UnsupportedOpcode with its own word, or advances `pc` under `SYS_POLICY` = nop. -/
def Obligations.SysFollowsItsPolicy : Prop :=
  ∀ (nnn : Addr12) (s : State),
    (s.cfg.sysPolicy = .fault →
      exec (.sys nnn) s = .next { s with fault := some ⟨.unsupportedOpcode, s.pc, some (nnn.setWidth 16)⟩ }) ∧
    (s.cfg.sysPolicy = .nop → exec (.sys nnn) s = .next { s with pc := s.pc + 2 })

/-- R112, R118: a jump sets `pc` to NNN, or to NNN + V0 with no wrap at 12 bits, and changes nothing else. -/
def Obligations.JumpsGoToTheirTargets : Prop :=
  ∀ (nnn : Addr12) (s : State),
    (∃ t, exec (.jp nnn) s = .next t ∧ t.pc.toNat = nnn.toNat ∧ t = { s with pc := t.pc }) ∧
    (∃ t, exec (.jpV0 nnn) s = .next t ∧ t.pc.toNat = nnn.toNat + s.v[(0 : Reg)].toNat ∧ t = { s with pc := t.pc })

/-- R113: CALL pushes `pc + 2` and jumps, or raises StackOverflow when the stack holds 16 entries. -/
def Obligations.CallPushesAndJumps : Prop :=
  ∀ (nnn : Addr12) (s : State),
    (∀ h : s.sp.val < 16, ∃ t, exec (.call nnn) s = .next t ∧ t.sp.val = s.sp.val + 1 ∧ t.pc.toNat = nnn.toNat ∧
      t.stack[s.sp.val] = s.pc + 2 ∧ (∀ j : Fin 16, j.val ≠ s.sp.val → t.stack[j] = s.stack[j]) ∧
      t = { s with pc := t.pc, sp := t.sp, stack := t.stack }) ∧
    (s.sp.val = 16 → exec (.call nnn) s =
      .next { s with fault := some ⟨.stackOverflow, s.pc, some (encode (.call nnn))⟩ })

/-- R111: RET pops the return address, which is the new `pc` as it stands, or raises StackUnderflow on an empty stack. -/
def Obligations.ReturnPopsItsAddress : Prop :=
  ∀ s : State,
    (∀ h : s.sp.val ≠ 0, ∃ t, exec .ret s = .next t ∧ t.sp.val = s.sp.val - 1 ∧
      t.pc = s.stack[s.sp.val - 1]'(by have := s.sp.isLt; omega) ∧ t = { s with pc := t.pc, sp := t.sp }) ∧
    (s.sp.val = 0 → exec .ret s = .next { s with fault := some ⟨.stackUnderflow, s.pc, some 0x00EE⟩ })

/-- A RET from the stack a CALL left goes to the instruction after the CALL and restores the stack pointer, whatever else
ran in between (R111, R113). -/
def Obligations.CallThenReturnComesBack : Prop :=
  ∀ (nnn : Addr12) (s : State), s.sp.val < 16 → ∃ t, exec (.call nnn) s = .next t ∧
    ∀ u : State, u.sp = t.sp → u.stack = t.stack →
      ∃ u', exec .ret u = .next u' ∧ u'.pc = s.pc + 2 ∧ u'.sp = s.sp

/-- 16 nested CALLs from an empty stack all run, and the 17th raises StackOverflow (R113). -/
def Obligations.SeventeenthNestedCallOverflows : Prop :=
  ∀ (calls : List Addr12) (nnn : Addr12) (s : State), s.sp.val = 0 → calls.length = 16 →
    ∃ t, execCalls calls s = .next t ∧ t.fault = s.fault ∧ t.sp.val = 16 ∧
      exec (.call nnn) t = .next { t with fault := some ⟨.stackOverflow, t.pc, some (encode (.call nnn))⟩ }

/-- R114 to R117: a skip moves `pc` by 4 if its condition holds and by 2 if not, and changes nothing else. -/
def Obligations.SkipsFollowTheirConditions : Prop :=
  ∀ (x y : Reg) (nn : Byte) (s : State),
    exec (.seImm x nn) s = .next { s with pc := if s.v[x] = nn then s.pc + 4 else s.pc + 2 } ∧
    exec (.sneImm x nn) s = .next { s with pc := if s.v[x] ≠ nn then s.pc + 4 else s.pc + 2 } ∧
    exec (.seReg x y) s = .next { s with pc := if s.v[x] = s.v[y] then s.pc + 4 else s.pc + 2 } ∧
    exec (.sneReg x y) s = .next { s with pc := if s.v[x] ≠ s.v[y] then s.pc + 4 else s.pc + 2 }

/-! ## Loads, ALU, random -/

/-- R132 to R137: the loads, the add of a byte and the logic write V[X] and advance `pc`; nothing else changes. -/
def Obligations.LoadsAndLogicWriteTheirRegister : Prop :=
  ∀ (x y : Reg) (nn : Byte) (s : State),
    exec (.ldImm x nn) s = .next { s with v := s.v.set x.val nn, pc := s.pc + 2 } ∧
    exec (.addImm x nn) s =
      .next { s with v := s.v.set x.val (BitVec.ofNat 8 ((s.v[x].toNat + nn.toNat) % 256)), pc := s.pc + 2 } ∧
    exec (.ldReg x y) s = .next { s with v := s.v.set x.val s.v[y], pc := s.pc + 2 } ∧
    exec (.orReg x y) s = .next { s with v := s.v.set x.val (s.v[x] ||| s.v[y]), pc := s.pc + 2 } ∧
    exec (.andReg x y) s = .next { s with v := s.v.set x.val (s.v[x] &&& s.v[y]), pc := s.pc + 2 } ∧
    exec (.xorReg x y) s = .next { s with v := s.v.set x.val (s.v[x] ^^^ s.v[y]), pc := s.pc + 2 }

/-- R138: ADD with carry. With X = F the last write of `FLAG_ORDER` stands (R131). -/
def Obligations.AddSetsTheCarry : Prop :=
  ∀ (x y : Reg) (s : State), ∃ t, exec (.addReg x y) s = .next t ∧
    (x ≠ VF → t.v[x].toNat = (s.v[x].toNat + s.v[y].toNat) % 256 ∧
      t.v[VF].toNat = if s.v[x].toNat + s.v[y].toNat > 255 then 1 else 0) ∧
    (x = VF → s.cfg.flagOrder = .destLast → t.v[VF].toNat = (s.v[x].toNat + s.v[y].toNat) % 256) ∧
    (x = VF → s.cfg.flagOrder = .flagLast →
      t.v[VF].toNat = if s.v[x].toNat + s.v[y].toNat > 255 then 1 else 0) ∧
    (∀ r, r ≠ x → r ≠ VF → t.v[r] = s.v[r]) ∧ t = { s with v := t.v, pc := s.pc + 2 }

/-- R139, R141: SUB is V[X] - V[Y] and SUBN is V[Y] - V[X], modulo 256; VF is 1 iff there is no borrow. With X = F the
last write of `FLAG_ORDER` stands (R131). -/
def Obligations.SubtractsSetNotBorrow : Prop :=
  ∀ (x y : Reg) (s : State),
    (∃ t, exec (.subReg x y) s = .next t ∧
      (x ≠ VF → t.v[x].toNat = (s.v[x].toNat + 256 - s.v[y].toNat) % 256 ∧
        t.v[VF].toNat = if s.v[x].toNat ≥ s.v[y].toNat then 1 else 0) ∧
      (x = VF → s.cfg.flagOrder = .destLast → t.v[VF].toNat = (s.v[x].toNat + 256 - s.v[y].toNat) % 256) ∧
      (x = VF → s.cfg.flagOrder = .flagLast → t.v[VF].toNat = if s.v[x].toNat ≥ s.v[y].toNat then 1 else 0) ∧
      (∀ r, r ≠ x → r ≠ VF → t.v[r] = s.v[r]) ∧ t = { s with v := t.v, pc := s.pc + 2 }) ∧
    (∃ t, exec (.subnReg x y) s = .next t ∧
      (x ≠ VF → t.v[x].toNat = (s.v[y].toNat + 256 - s.v[x].toNat) % 256 ∧
        t.v[VF].toNat = if s.v[y].toNat ≥ s.v[x].toNat then 1 else 0) ∧
      (x = VF → s.cfg.flagOrder = .destLast → t.v[VF].toNat = (s.v[y].toNat + 256 - s.v[x].toNat) % 256) ∧
      (x = VF → s.cfg.flagOrder = .flagLast → t.v[VF].toNat = if s.v[y].toNat ≥ s.v[x].toNat then 1 else 0) ∧
      (∀ r, r ≠ x → r ≠ VF → t.v[r] = s.v[r]) ∧ t = { s with v := t.v, pc := s.pc + 2 })

/-- R140, R142: SHR and SHL move V[X] by one bit, whatever Y is, and VF receives the bit shifted out. With X = F the
last write of `FLAG_ORDER` stands (R131). -/
def Obligations.ShiftsMoveOneBitOut : Prop :=
  ∀ (x y : Reg) (s : State),
    (∃ t, exec (.shr x y) s = .next t ∧
      (x ≠ VF → t.v[x].toNat = s.v[x].toNat / 2 ∧ t.v[VF].toNat = s.v[x].toNat % 2) ∧
      (x = VF → s.cfg.flagOrder = .destLast → t.v[VF].toNat = s.v[x].toNat / 2) ∧
      (x = VF → s.cfg.flagOrder = .flagLast → t.v[VF].toNat = s.v[x].toNat % 2) ∧
      (∀ r, r ≠ x → r ≠ VF → t.v[r] = s.v[r]) ∧ t = { s with v := t.v, pc := s.pc + 2 }) ∧
    (∃ t, exec (.shl x y) s = .next t ∧
      (x ≠ VF → t.v[x].toNat = s.v[x].toNat * 2 % 256 ∧ t.v[VF].toNat = s.v[x].toNat / 128) ∧
      (x = VF → s.cfg.flagOrder = .destLast → t.v[VF].toNat = s.v[x].toNat * 2 % 256) ∧
      (x = VF → s.cfg.flagOrder = .flagLast → t.v[VF].toNat = s.v[x].toNat / 128) ∧
      (∀ r, r ≠ x → r ≠ VF → t.v[r] = s.v[r]) ∧ t = { s with v := t.v, pc := s.pc + 2 })

/-- R143: RND writes the drawn byte under the mask and draws exactly one byte; a byte the host has injected is the byte
drawn, and with a zero mask the result is zero whatever is drawn. The drawn byte is otherwise free (log 3). -/
def Obligations.RandomDrawsOneMaskedByte : Prop :=
  ∀ (x : Reg) (nn : Byte) (s : State), ∃ t, exec (.rnd x nn) s = .next t ∧
    t.v[x] = nextRandom s &&& nn ∧ (∀ b bs, s.rand = b :: bs → t.v[x] = b &&& nn ∧ t.rand = bs) ∧
    (nn = 0 → t.v[x] = 0) ∧ t.draws = s.draws + 1 ∧ t.rand = s.rand.tail ∧
    (∀ r, r ≠ x → t.v[r] = s.v[r]) ∧
    t = { s with v := t.v, pc := s.pc + 2, rand := t.rand, draws := t.draws }

/-! ## Index register and memory -/

/-- R161, R162: LD I sets I to NNN; ADD I adds V[X] modulo 2^16 and writes no flag. -/
def Obligations.IndexLoadAndAdd : Prop :=
  ∀ (nnn : Addr12) (x : Reg) (s : State),
    (∃ t, exec (.ldI nnn) s = .next t ∧ t.index.toNat = nnn.toNat ∧ t = { s with index := t.index, pc := s.pc + 2 }) ∧
    (∃ t, exec (.addI x) s = .next t ∧ t.index.toNat = (s.index.toNat + s.v[x].toNat) % 65536 ∧
      t = { s with index := t.index, pc := s.pc + 2 })

/-- R163: LD F sets I to 0x050 + 5 * digit; a value above 0x0F raises FontDigitOutOfRange or uses its low nibble. -/
def Obligations.FontLookupAddressesTheDigit : Prop :=
  ∀ (x : Reg) (s : State),
    ((s.v[x].toNat ≤ 0xF ∨ s.cfg.fontDigitPolicy = .lowNibble) →
      ∃ t, exec (.ldF x) s = .next t ∧ t.index.toNat = 0x050 + 5 * (s.v[x].toNat % 16) ∧
        t = { s with index := t.index, pc := s.pc + 2 }) ∧
    (s.v[x].toNat > 0xF → s.cfg.fontDigitPolicy = .fault →
      exec (.ldF x) s = .next { s with fault := some ⟨.fontDigitOutOfRange, s.pc, some (encode (.ldF x))⟩ })

/-- R64, R65: the address check of an access, as the spec's `CheckAddr` gives it. -/
def Obligations.AddressChecksFollowThePolicies : Prop :=
  ∀ (cfg : Config) (a : Nat),
    (a ≤ 0xFFF → checkAddr cfg .read a = .ok a) ∧
    (a > 0xFFF → cfg.addrPolicy = .fault → ∀ acc, checkAddr cfg acc a = .error .addressOutOfRange) ∧
    (a > 0xFFF → cfg.addrPolicy = .mask12 → checkAddr cfg .read a = .ok (a % 4096)) ∧
    ∀ a', checkAddr cfg .read a = .ok a' →
      (a' ≤ 0x1FF → cfg.reservedWritePolicy = .fault → checkAddr cfg .write a = .error .reservedWrite) ∧
      (a' > 0x1FF ∨ cfg.reservedWritePolicy = .allow → checkAddr cfg .write a = .ok a')

/-- R164: LD B stores hundreds, tens and units at I, I+1, I+2 and no other byte; when an address fails its check, the
lowest one decides the fault and nothing is stored. The premise on memory is the canonical form (an invariant). -/
def Obligations.BcdStoresThreeDigits : Prop :=
  ∀ (x : Reg) (s : State), Memory.wf s.mem = true →
    (blockAllowed s .write 3 → ∃ t, exec (.ldB x) s = .next t ∧
      (Memory.read t.mem (blockAddr s 0)).toNat = s.v[x].toNat / 100 ∧
      (Memory.read t.mem (blockAddr s 1)).toNat = s.v[x].toNat / 10 % 10 ∧
      (Memory.read t.mem (blockAddr s 2)).toNat = s.v[x].toNat % 10 ∧
      (∀ a, (∀ k < 3, a ≠ blockAddr s k) → Memory.read t.mem a = Memory.read s.mem a) ∧
      t = { s with mem := t.mem, pc := s.pc + 2 }) ∧
    (∀ k < 3, (∀ j < k, allowed s.cfg .write (s.index.toNat + j)) → ¬ allowed s.cfg .write (s.index.toNat + k) →
      exec (.ldB x) s =
        .next { s with fault := some ⟨addrFault s.cfg (s.index.toNat + k), s.pc, some (encode (.ldB x))⟩ })

/-- R165: LD [I],VX stores V0 to VX at I, I+1, … and no other byte, and adds X + 1 to I under `LS_INCREMENT_I` only; when
an address fails its check, the lowest one decides the fault and nothing is stored. -/
def Obligations.StoreRegistersFillsTheBlock : Prop :=
  ∀ (x : Reg) (s : State), Memory.wf s.mem = true →
    (blockAllowed s .write (x.val + 1) → ∃ t, exec (.storeRegs x) s = .next t ∧
      (∀ r : Reg, r ≤ x → Memory.read t.mem (blockAddr s r.val) = s.v[r]) ∧
      (∀ a, (∀ k < x.val + 1, a ≠ blockAddr s k) → Memory.read t.mem a = Memory.read s.mem a) ∧
      (s.cfg.lsIncrementI = false → t.index = s.index) ∧
      (s.cfg.lsIncrementI = true → t.index.toNat = (s.index.toNat + x.val + 1) % 65536) ∧
      t = { s with mem := t.mem, index := t.index, pc := s.pc + 2 }) ∧
    (∀ k < x.val + 1, (∀ j < k, allowed s.cfg .write (s.index.toNat + j)) →
      ¬ allowed s.cfg .write (s.index.toNat + k) →
      exec (.storeRegs x) s =
        .next { s with fault := some ⟨addrFault s.cfg (s.index.toNat + k), s.pc, some (encode (.storeRegs x))⟩ })

/-- R166: LD VX,[I] loads V0 to VX from I, I+1, …, leaves the other registers and memory alone, and adds X + 1 to I under
`LS_INCREMENT_I` only; when an address fails its check, the lowest one decides the fault and nothing is loaded. -/
def Obligations.LoadRegistersReadsTheBlock : Prop :=
  ∀ (x : Reg) (s : State),
    (blockAllowed s .read (x.val + 1) → ∃ t, exec (.loadRegs x) s = .next t ∧
      (∀ r : Reg, r ≤ x → t.v[r] = Memory.read s.mem (blockAddr s r.val)) ∧
      (∀ r : Reg, x < r → t.v[r] = s.v[r]) ∧
      (s.cfg.lsIncrementI = false → t.index = s.index) ∧
      (s.cfg.lsIncrementI = true → t.index.toNat = (s.index.toNat + x.val + 1) % 65536) ∧
      t = { s with v := t.v, index := t.index, pc := s.pc + 2 }) ∧
    (∀ k < x.val + 1, (∀ j < k, allowed s.cfg .read (s.index.toNat + j)) →
      ¬ allowed s.cfg .read (s.index.toNat + k) →
      exec (.loadRegs x) s =
        .next { s with fault := some ⟨addrFault s.cfg (s.index.toNat + k), s.pc, some (encode (.loadRegs x))⟩ })

/-- LD VX,[I] after LD [I],VX with the same I gives V0 to VX back, whatever changed in between but memory (R165, R166). -/
def Obligations.StoreThenLoadGivesRegistersBack : Prop :=
  ∀ (x : Reg) (s : State), Memory.wf s.mem = true → blockAllowed s .write (x.val + 1) →
    ∃ t, exec (.storeRegs x) s = .next t ∧
      ∀ u : State, u.mem = t.mem → u.index = s.index → u.cfg = s.cfg →
        ∃ u', exec (.loadRegs x) u = .next u' ∧ ∀ r : Reg, r ≤ x → u'.v[r] = s.v[r]

/-- A byte a store put at `pc` is fetched by the next CPU tick there, high byte from the lower address (R66, R73): here a
word made of two registers that FX55 stored side by side. -/
def Obligations.StoredWordIsFetched : Prop :=
  ∀ (x : Reg) (s : State) (k : Nat), Memory.wf s.mem = true → blockAllowed s .write (x.val + 1) →
    ∀ hk : k + 1 ≤ x.val, ∃ t, exec (.storeRegs x) s = .next t ∧
      ∀ u : State, u.mem = t.mem → u.cfg = s.cfg → u.pc.toNat = s.index.toNat + k →
        (u.cfg.alignPolicy = .allow ∨ u.pc.toNat % 2 = 0) → (u.cfg.addrPolicy = .mask12 ∨ u.pc.toNat ≤ 0xFFE) →
        fetch u = .ok (wordOfBytes (s.v[k]'(by have := x.isLt; omega)) (s.v[k + 1]'(by have := x.isLt; omega)))

/-! ## Display -/

/-- R181: CLS turns every pixel off, writes no flag and changes nothing else. -/
def Obligations.ClearTurnsEveryPixelOff : Prop :=
  ∀ s : State, ∃ t, exec .cls s = .next t ∧ (∀ x y, Display.pixel t.disp x y = false) ∧
    t = { s with disp := t.disp, pc := s.pc + 2 }

/-- R180: a sprite drawn at `(x0, y0)` covers exactly the pixels on which one of its set bits lands, bit 7 leftmost, with
both coordinates around the edge. -/
def Obligations.SpriteCoversWhereItsBitsLand : Prop :=
  ∀ (sprite : List Byte) (x0 y0 : Nat) (x : Fin 64) (y : Fin 32), sprite.length ≤ 32 →
    (spriteCovers sprite x0 y0 x y = true ↔ ∃ r c, c < 8 ∧ x.val = (x0 + c) % 64 ∧ y.val = (y0 + r) % 32 ∧
      ∃ h : r < sprite.length, sprite[r].getLsbD (7 - c) = true)

/-- R182: DRW inverts exactly the pixels the sprite covers, VF is 1 iff one of them was on, else 0, and nothing else
changes; when an address fails its check nothing is drawn. -/
def Obligations.DrawXorsTheSpriteAndReportsCollision : Prop :=
  ∀ (x y : Reg) (n : Nibble) (s : State),
    (blockAllowed s .read n.toNat → ∃ t, exec (.drw x y n) s = .next t ∧
      (∀ px py, Display.pixel t.disp px py =
        (Display.pixel s.disp px py ^^ spriteCovers (spriteBytes s n) s.v[x].toNat s.v[y].toNat px py)) ∧
      (t.v[VF] = 1 ↔ ∃ px py, spriteCovers (spriteBytes s n) s.v[x].toNat s.v[y].toNat px py = true ∧
        Display.pixel s.disp px py = true) ∧
      (t.v[VF] = 0 ∨ t.v[VF] = 1) ∧ (∀ r, r ≠ VF → t.v[r] = s.v[r]) ∧
      t = { s with v := t.v, disp := t.disp, pc := s.pc + 2 }) ∧
    (∀ k < n.toNat, (∀ j < k, allowed s.cfg .read (s.index.toNat + j)) → ¬ allowed s.cfg .read (s.index.toNat + k) →
      exec (.drw x y n) s =
        .next { s with fault := some ⟨addrFault s.cfg (s.index.toNat + k), s.pc, some (encode (.drw x y n))⟩ })

/-- R183: drawing one sprite twice at one place restores the buffer, and the second draw collides iff some set bit lands
on a pixel that was off before the first; on a clear buffer, iff the sprite has a set bit. -/
def Obligations.DrawingTwiceRestoresTheBuffer : Prop :=
  ∀ (x y : Reg) (n : Nibble) (s : State), blockAllowed s .read n.toNat →
    ∃ t, exec (.drw x y n) s = .next t ∧
      ∀ u : State, u.disp = t.disp → u.mem = s.mem → u.index = s.index → u.cfg = s.cfg → u.v[x] = s.v[x] →
        u.v[y] = s.v[y] →
        ∃ u', exec (.drw x y n) u = .next u' ∧ u'.disp = s.disp ∧
          (u'.v[VF] = 1 ↔ ∃ px py, spriteCovers (spriteBytes s n) s.v[x].toNat s.v[y].toNat px py = true ∧
            Display.pixel s.disp px py = false) ∧
          (s.disp = Display.clear → (u'.v[VF] = 1 ↔ ∃ b ∈ spriteBytes s n, b ≠ 0))

/-! ## Keys and timers -/

/-- R200 to R202: the key skips test the latch bit of V[X]; a value above 0x0F raises KeyIndexOutOfRange or uses its low
nibble. -/
def Obligations.KeySkipsTestTheLatch : Prop :=
  ∀ (x : Reg) (s : State),
    ((s.v[x].toNat ≤ 0xF ∨ s.cfg.keyIndexPolicy = .lowNibble) →
      exec (.skp x) s = .next { s with
        pc := if s.key[s.v[x].toNat % 16]'(Nat.mod_lt _ (by decide)) = true then s.pc + 4 else s.pc + 2 } ∧
      exec (.sknp x) s = .next { s with
        pc := if s.key[s.v[x].toNat % 16]'(Nat.mod_lt _ (by decide)) = false then s.pc + 4 else s.pc + 2 }) ∧
    (s.v[x].toNat > 0xF → s.cfg.keyIndexPolicy = .fault →
      exec (.skp x) s = .next { s with fault := some ⟨.keyIndexOutOfRange, s.pc, some (encode (.skp x))⟩ } ∧
      exec (.sknp x) s = .next { s with fault := some ⟨.keyIndexOutOfRange, s.pc, some (encode (.sknp x))⟩ })

/-- R203 to R206: the timer reads and writes; FX0A begins to wait, with `pc` unchanged. Nothing else changes. -/
def Obligations.TimerAndKeyWaitInstructions : Prop :=
  ∀ (x : Reg) (s : State),
    exec (.ldVxDt x) s = .next { s with v := s.v.set x.val s.dt, pc := s.pc + 2 } ∧
    exec (.ldDtVx x) s = .next { s with dt := s.v[x], pc := s.pc + 2 } ∧
    exec (.ldStVx x) s = .next { s with st := s.v[x], pc := s.pc + 2 } ∧
    exec (.ldVxK x) s = .next { s with run := .awaitingKey, waitReg := x }

/-- R207: a key event writes the latch; a press edge while the core waits with no fault also completes the wait. -/
def Obligations.KeyEventWritesLatchAndCompletesWait : Prop :=
  ∀ (s : State) (k : Key) (p : Bool),
    (s.fault = none ∧ s.run = .awaitingKey ∧ p = true ∧ s.key[k] = false →
      perform (.keyEvent k p) s = .next { s with
        key := s.key.set k.val p, v := s.v.set s.waitReg.val (BitVec.ofNat 8 k.val), pc := s.pc + 2, run := .running }) ∧
    (¬ (s.fault = none ∧ s.run = .awaitingKey ∧ p = true ∧ s.key[k] = false) →
      perform (.keyEvent k p) s = .next { s with key := s.key.set k.val p })

/-- A core that waits for a key keeps waiting with the same `pc` and registers through any number of CPU ticks, timer
ticks, key releases and reads, and the next press edge completes the wait (R102, R204, R207, R210). -/
def Obligations.KeyWaitHoldsUntilAPressEdge : Prop :=
  ∀ (s : State) (ts rest : List Transaction) (k : Key), s.run = .awaitingKey → s.fault = none →
    (∀ t ∈ ts, keepsWaiting t) → s.pending = ts ++ .keyEvent k true :: rest →
    ∃ u : State, core.run ts.length s = .next u ∧ u.pc = s.pc ∧ u.v = s.v ∧ u.run = .awaitingKey ∧ u.fault = none ∧
      u.waitReg = s.waitReg ∧
      (u.key[k] = false → ∃ u', step u = .next u' ∧ u'.pc = s.pc + 2 ∧ u'.run = .running ∧
        (∀ r, u'.v[r] = if r = s.waitReg then BitVec.ofNat 8 k.val else s.v[r]) ∧ u'.key[k] = true ∧ u'.pending = rest)

/-- R210: a timer tick of a started core takes one off each timer that is above 0, in Running and in AwaitingKey, and does
nothing after a fault. -/
def Obligations.TimerTickCountsBothDown : Prop :=
  ∀ s : State, s.boot = .started →
    (s.fault ≠ none → perform .timerTick s = .next s) ∧
    (s.fault = none → ∃ t, perform .timerTick s = .next t ∧ t.dt.toNat = s.dt.toNat - 1 ∧
      t.st.toNat = s.st.toNat - 1 ∧ t = { s with dt := t.dt, st := t.st })

/-- Any number of timer ticks takes that number off a timer and leaves it at 0, never below (R210, R31). -/
def Obligations.TimersStopAtZero : Prop :=
  ∀ (n : Nat) (s : State) (rest : List Transaction), s.boot = .started → s.fault = none →
    s.pending = List.replicate n .timerTick ++ rest →
    ∃ t : State, core.run n s = .next t ∧ t.dt.toNat = s.dt.toNat - n ∧ t.st.toNat = s.st.toNat - n ∧ t.pending = rest

/-! ## Reset and loads -/

/-- R260: every element of the state that has a reset value holds it; memory holds the default `MEM_FILL` (R262). -/
def Obligations.ResetGivesTheListedValues : Prop :=
  State.reset.pc = 0x200 ∧ (∀ r : Reg, State.reset.v[r] = 0) ∧ State.reset.index = 0 ∧ State.reset.sp = 0 ∧
    State.reset.dt = 0 ∧ State.reset.st = 0 ∧ (∀ x y, Display.pixel State.reset.disp x y = false) ∧
    (∀ k : Key, State.reset.key[k] = false) ∧ State.reset.run = .running ∧ State.reset.fault = none ∧
    ∀ a, a < 4096 → Memory.read State.reset.mem a = 0x00

/-- For every choice of parameters the memory at reset is in canonical form, and with a byte as `MEM_FILL` every byte of
it holds that byte (R262, before the loads). -/
def Obligations.ResetMemoryHoldsTheFill : Prop :=
  (∀ cfg : Config, Memory.wf (State.resetOf cfg).mem = true) ∧
    ∀ (cfg : Config) (b : Byte), cfg.memFill = .byte b → ∀ a, a < 4096 → Memory.read (State.resetOf cfg).mem a = b

/-- `load_font` puts the five rows of digit `d` at 0x050 + 5 * d and changes no other byte (R263, R265). The boot phase is
the model's field (log 12), the 80 bytes a parameter (log 9). -/
def Obligations.LoadFontWritesTheTable : Prop :=
  ∀ s : State, s.boot = .afterReset → Memory.wf s.mem = true →
    ∃ t, perform .loadFont s = .next t ∧
      (∀ (d : Fin 16) (row : Fin 5), Memory.read t.mem (0x050 + 5 * d.val + row.val) = s.cfg.font[d][row]) ∧
      (∀ a, a < 0x050 ∨ 0x09F < a → Memory.read t.mem a = Memory.read s.mem a) ∧
      t = { s with mem := t.mem, boot := .fontLoaded }

/-- A program of at most 3584 bytes is copied to 0x200; a longer one leaves memory unchanged (R264). The first starts the
core, the second means it never starts (R264, R265). The field `boot` and its phases `started` and `loadTooLarge` are how
the model says so (log 12, log 19). -/
def Obligations.LoadProgramCopiesOrRefuses : Prop :=
  ∀ (s : State) (bytes : List Byte), s.boot = .fontLoaded → Memory.wf s.mem = true →
    (bytes.length > 3584 → (loadProgram bytes s).1 = .loadTooLarge ∧
      perform (.loadProgram bytes) s = .next { s with boot := .loadTooLarge }) ∧
    (bytes.length ≤ 3584 → (loadProgram bytes s).1 = .ok ∧ ∃ t, perform (.loadProgram bytes) s = .next t ∧
      (∀ (i : Nat) (h : i < bytes.length), Memory.read t.mem (0x200 + i) = bytes[i]) ∧
      (∀ a, a < 0x200 ∨ 0x200 + bytes.length ≤ a → Memory.read t.mem a = Memory.read s.mem a) ∧
      t = { s with mem := t.mem, boot := .started })

/-- Before the start, and for ever after `LoadTooLarge`, no CPU tick and no timer tick has an effect, a key event updates
the latch only, and a load that R265 does not enable next gives no next state (the refusal is the model's, log 12). -/
def Obligations.NothingRunsBeforeTheStart : Prop :=
  (∀ s : State, StatusInv s → s.boot ≠ .started →
    perform .cpuTick s = .next s ∧ perform .timerTick s = .next s ∧
    ∀ k p, perform (.keyEvent k p) s = .next { s with key := s.key.set k.val p }) ∧
  ∀ s : State, (s.boot ≠ .afterReset → perform .loadFont s = .refused .loadNotEnabled) ∧
    (s.boot ≠ .fontLoaded → ∀ bytes, perform (.loadProgram bytes) s = .refused .loadNotEnabled)

/-- Reset, load_font, load_program: then the core executes and its first fetch reads the program's first word, at 0x200
(R265). The lists of transactions are the model's way to say what the host does (log 2). -/
def Obligations.BootLeadsToTheFirstWord : Prop :=
  ∀ (b0 b1 : Byte) (more : List Byte), more.length ≤ 3582 →
    ∃ t : State, core.run 2 { State.reset with pending := [.loadFont, .loadProgram (b0 :: b1 :: more)] } = .next t ∧
      executing t ∧ t.pc = 0x200 ∧ t.pending = [] ∧ fetch t = .ok (wordOfBytes b0 b1)

/-! ## Invariants -/

/-- Every step keeps memory in its canonical form: addresses below 4096, rising, none listed with the fill. -/
def Obligations.StepKeepsMemoryCanonical : Prop :=
  ∀ s t : State, Memory.wf s.mem = true → step s = .next t → Memory.wf t.mem = true

/-- Every step keeps the status consistent: before the start Running with no fault; while waiting no fault and `pc` at
the FX0A; a fault record names `pc` and what the fetch there gives. -/
def Obligations.StepKeepsStatusConsistent : Prop :=
  ∀ s t : State, StatusInv s → step s = .next t → StatusInv t

/-- The state after reset is consistent in the same sense. -/
def Obligations.ResetStatusIsConsistent : Prop := StatusInv State.reset

/-! ## Who changes what -/

/-- No instruction but CALL and RET touches the call stack (R28), and RET lowers `sp` and leaves the entries: R29 writes an
entry in the push alone, which the model reads as "only CALL writes them" (DEDUCED, log 14). -/
def Obligations.OnlyCallAndReturnTouchTheStack : Prop :=
  ∀ (i : Instr) (s t : State), exec i s = .next t → (∀ nnn, i ≠ .call nnn) →
    t.stack = s.stack ∧ (i ≠ .ret → t.sp = s.sp)

/-- The display is written by CLS and DRW only (R33), the latch by no instruction (R34), and the parameters are no state
an instruction could write (R40, in `cfg` by log 4). No instruction moves the boot order, which R265 gives the loads (the
field is the model's, log 12), nor the host's list, a field of the model's own (log 2). -/
def Obligations.OnlyDisplayInstructionsTouchTheDisplay : Prop :=
  ∀ (i : Instr) (s t : State), exec i s = .next t →
    (i ≠ .cls → (∀ x y n, i ≠ .drw x y n) → t.disp = s.disp) ∧
    t.key = s.key ∧ t.boot = s.boot ∧ t.cfg = s.cfg ∧ t.pending = s.pending

/-- I is written by ANNN, FX1E and FX29 only, and by FX55 and FX65 under `LS_INCREMENT_I` (R27, R165, R166); `dt` by FX15
and `st` by FX18 only (R31). A random byte is drawn by CXNN only (R143, R246): the queue `rand` and the counter `draws` in
which the model holds that input are its own, since R246 gives the core no generator state (log 3). -/
def Obligations.OnlyTheirWritersTouchIndexAndTimers : Prop :=
  ∀ (i : Instr) (s t : State), exec i s = .next t →
    ((∀ nnn, i ≠ .ldI nnn) → (∀ x, i ≠ .addI x) → (∀ x, i ≠ .ldF x) →
      (s.cfg.lsIncrementI = false ∨ ((∀ x, i ≠ .storeRegs x) ∧ ∀ x, i ≠ .loadRegs x)) → t.index = s.index) ∧
    ((∀ x, i ≠ .ldDtVx x) → t.dt = s.dt) ∧ ((∀ x, i ≠ .ldStVx x) → t.st = s.st) ∧
    ((∀ x nn, i ≠ .rnd x nn) → t.rand = s.rand ∧ t.draws = s.draws)

/-- An instruction leaves every general register alone but the ones R21 and R22 give it. -/
def Obligations.RegistersChangeOnlyAsListed : Prop :=
  ∀ (i : Instr) (s t : State) (r : Reg), exec i s = .next t → ¬ writesReg i r → t.v[r] = s.v[r]

/-- An instruction leaves every byte of memory alone but the ones it stores: FX33 three and FX55 X + 1 bytes from I on,
every other instruction none (R22, R61, R68). -/
def Obligations.MemoryChangesOnlyWhereStored : Prop :=
  ∀ (i : Instr) (s t : State) (a : Nat), exec i s = .next t → (∀ k < storeCount i, a ≠ blockAddr s k) →
    Memory.read t.mem a = Memory.read s.mem a

/-- R35: the core begins Running; AwaitingKey is entered only by executing FX0A and left only by a press edge with no
fault recorded. -/
def Obligations.KeyWaitIsEnteredAndLeftAsStated : Prop :=
  State.reset.run = .running ∧
    (∀ s t : State, s.run = .running → step s = .next t → t.run = .awaitingKey →
      executing s ∧ ∃ x, fetch s = .ok (encode (.ldVxK x)) ∧
        t = { s with pending := s.pending.tail, run := .awaitingKey, waitReg := x }) ∧
    ∀ s t : State, s.run = .awaitingKey → step s = .next t → t.run = .running →
      s.fault = none ∧ ∃ k rest, s.pending = .keyEvent k true :: rest ∧ s.key[k] = false

/-- The latch changes only by a key event, and only in that key's bit (R34); the parameters never change (R40). -/
def Obligations.LatchChangesOnlyByKeyEvents : Prop :=
  ∀ s t : State, step s = .next t → t.cfg = s.cfg ∧
    (t.key = s.key ∨ ∃ k p rest, s.pending = .keyEvent k p :: rest ∧ t.key[k] = p ∧
      ∀ j : Key, j ≠ k → t.key[j] = s.key[j])

/-! ## Reads by the host -/

/-- The display read gives 2048 pixels, pixel `(x, y)` at element y * 64 + x (R33, R245), and no read of the host changes
any state (R245, R247, R248). -/
def Obligations.DisplayReadIsRowMajor : Prop :=
  ∀ s : State, (displayRead s).length = 2048 ∧
    (∀ (x : Fin 64) (y : Fin 32), (displayRead s)[y.val * 64 + x.val]? = some (Display.pixel s.disp x y)) ∧
    ∀ t ∈ [Transaction.displayRead, .toneRead, .statusRead], perform t s = .next s

/-- The tone sounds while the sound timer is above 0 (R32), and the status read gives `pc` (R248) and every field of the
status word (R38): `run`, `wait_reg` while the core waits, whether a fault is recorded, and the record with the codes of
R221, its word valid iff there is one. A field that R38 leaves unspecified in a state, `wait_reg` while Running and the
fault fields where there is no fault or no word, is absent: the model's choice (log 18). -/
def Obligations.ToneAndStatusFollowTheState : Prop :=
  (∀ s : State, (toneOutput s = true ↔ s.st.toNat > 0) ∧ (statusRead s).pc = s.pc ∧
    ((statusRead s).run = 1 ↔ s.run = .awaitingKey) ∧
    (s.run = .awaitingKey → (statusRead s).waitReg = some (BitVec.ofFin s.waitReg)) ∧
    (s.run = .running → (statusRead s).waitReg = none) ∧
    ((statusRead s).faultValid = 1 ↔ s.fault ≠ none) ∧
    (∀ r, s.fault = some r → (statusRead s).faultKind = some (FaultKind.code r.kind) ∧
      (statusRead s).faultAddr = some r.addr ∧ (statusRead s).faultWord = r.word ∧
      (r.word = none → (statusRead s).faultWordValid = some 0) ∧
      ∀ w, r.word = some w → (statusRead s).faultWordValid = some 1) ∧
    (s.fault = none → (statusRead s).faultKind = none ∧ (statusRead s).faultAddr = none ∧
      (statusRead s).faultWordValid = none ∧ (statusRead s).faultWord = none)) ∧
    [FaultKind.unsupportedOpcode, .stackOverflow, .stackUnderflow, .addressOutOfRange, .pcMisaligned, .reservedWrite,
      .keyIndexOutOfRange, .fontDigitOutOfRange].map FaultKind.code = [0x1, 0x2, 0x3, 0x4, 0x5, 0x6, 0x7, 0x8] ∧
    LoadResult.code .loadTooLarge = 0xF
end

