-- ==== Sys2Proof/Laws/Decode.lean ====
section
/-! SUPPORT. The fields of an encoded word, format by format, and a word put together again from its fields. -/

namespace Sys2Proof

/-! ## Fields as numbers -/

theorem fieldOp_toNat (w : Word) : (fieldOp w).toNat = w.toNat / 0x1000 := by
  have := w.isLt
  simp only [fieldOp, BitVec.extractLsb'_toNat, Nat.shiftRight_eq_div_pow]
  omega

theorem fieldX_val (w : Word) : (fieldX w).val = w.toNat / 0x100 % 0x10 := by
  show (w.extractLsb' 8 4).toNat = _
  simp only [BitVec.extractLsb'_toNat, Nat.shiftRight_eq_div_pow]

theorem fieldY_val (w : Word) : (fieldY w).val = w.toNat / 0x10 % 0x10 := by
  show (w.extractLsb' 4 4).toNat = _
  simp only [BitVec.extractLsb'_toNat, Nat.shiftRight_eq_div_pow]

theorem fieldN_toNat (w : Word) : (fieldN w).toNat = w.toNat % 0x10 := by
  simp only [fieldN, BitVec.extractLsb'_toNat, Nat.shiftRight_eq_div_pow]
  omega

theorem fieldNN_toNat (w : Word) : (fieldNN w).toNat = w.toNat % 0x100 := by
  simp only [fieldNN, BitVec.extractLsb'_toNat, Nat.shiftRight_eq_div_pow]
  omega

theorem fieldNNN_toNat (w : Word) : (fieldNNN w).toNat = w.toNat % 0x1000 := by
  simp only [fieldNNN, BitVec.extractLsb'_toNat, Nat.shiftRight_eq_div_pow]
  omega

/-! ## Words as numbers -/

theorem formatNNN_toNat {op : Nat} (hop : op < 16) (nnn : Addr12) :
    (formatNNN op nnn).toNat = op * 0x1000 + nnn.toNat := by
  have := nnn.isLt
  simp only [formatNNN, BitVec.toNat_ofNat]
  omega

theorem formatXNN_toNat {op : Nat} (hop : op < 16) (x : Reg) (nn : Byte) :
    (formatXNN op x nn).toNat = op * 0x1000 + x.val * 0x100 + nn.toNat := by
  have := nn.isLt
  have := x.isLt
  simp only [formatXNN, BitVec.toNat_ofNat]
  omega

theorem formatXYN_toNat {op : Nat} (hop : op < 16) (x y : Reg) (n : Nibble) :
    (formatXYN op x y n).toNat = op * 0x1000 + x.val * 0x100 + y.val * 0x10 + n.toNat := by
  have := n.isLt
  have := x.isLt
  have := y.isLt
  simp only [formatXYN, BitVec.toNat_ofNat]
  omega

/-! ## The fields of each format -/

section
variable {op : Nat} (hop : op < 16)
include hop

theorem fieldOp_formatNNN (nnn : Addr12) : (fieldOp (formatNNN op nnn)).toNat = op := by
  have := nnn.isLt
  rw [fieldOp_toNat, formatNNN_toNat hop]; omega

theorem fieldNNN_formatNNN (nnn : Addr12) : fieldNNN (formatNNN op nnn) = nnn := by
  have := nnn.isLt
  apply BitVec.eq_of_toNat_eq
  rw [fieldNNN_toNat, formatNNN_toNat hop]; omega

theorem fieldOp_formatXNN (x : Reg) (nn : Byte) : (fieldOp (formatXNN op x nn)).toNat = op := by
  have := nn.isLt
  rw [fieldOp_toNat, formatXNN_toNat hop]; omega

theorem fieldX_formatXNN (x : Reg) (nn : Byte) : fieldX (formatXNN op x nn) = x := by
  have := nn.isLt
  apply Fin.ext
  rw [fieldX_val, formatXNN_toNat hop]; omega

theorem fieldNN_formatXNN (x : Reg) (nn : Byte) : fieldNN (formatXNN op x nn) = nn := by
  have := nn.isLt
  apply BitVec.eq_of_toNat_eq
  rw [fieldNN_toNat, formatXNN_toNat hop]; omega

theorem fieldOp_formatXYN (x y : Reg) (n : Nibble) : (fieldOp (formatXYN op x y n)).toNat = op := by
  have := n.isLt
  rw [fieldOp_toNat, formatXYN_toNat hop]; omega

theorem fieldX_formatXYN (x y : Reg) (n : Nibble) : fieldX (formatXYN op x y n) = x := by
  have := n.isLt
  apply Fin.ext
  rw [fieldX_val, formatXYN_toNat hop]; omega

theorem fieldY_formatXYN (x y : Reg) (n : Nibble) : fieldY (formatXYN op x y n) = y := by
  have := n.isLt
  apply Fin.ext
  rw [fieldY_val, formatXYN_toNat hop]; omega

theorem fieldN_formatXYN (x y : Reg) (n : Nibble) : fieldN (formatXYN op x y n) = n := by
  have := n.isLt
  apply BitVec.eq_of_toNat_eq
  rw [fieldN_toNat, formatXYN_toNat hop]; omega

end

/-! ## A word from its fields -/

theorem formatNNN_fields {op : Nat} {w : Word} (h : (fieldOp w).toNat = op) : formatNNN op (fieldNNN w) = w := by
  have hop : op < 16 := h ▸ (fieldOp w).isLt
  apply BitVec.eq_of_toNat_eq
  rw [formatNNN_toNat hop, fieldNNN_toNat]
  rw [fieldOp_toNat] at h
  omega

theorem formatXNN_fields {op : Nat} {w : Word} (h : (fieldOp w).toNat = op) :
    formatXNN op (fieldX w) (fieldNN w) = w := by
  have hop : op < 16 := h ▸ (fieldOp w).isLt
  apply BitVec.eq_of_toNat_eq
  rw [formatXNN_toNat hop, fieldNN_toNat, fieldX_val]
  rw [fieldOp_toNat] at h
  omega

theorem formatXYN_fields {op : Nat} {w : Word} (h : (fieldOp w).toNat = op) :
    formatXYN op (fieldX w) (fieldY w) (fieldN w) = w := by
  have hop : op < 16 := h ▸ (fieldOp w).isLt
  apply BitVec.eq_of_toNat_eq
  rw [formatXYN_toNat hop, fieldN_toNat, fieldX_val, fieldY_val]
  rw [fieldOp_toNat] at h
  omega

/-! ## Bytes of a word -/

theorem wordOfBytes_toNat (hi lo : Byte) : (wordOfBytes hi lo).toNat = hi.toNat * 0x100 + lo.toNat := by
  have := lo.isLt
  rw [wordOfBytes, BitVec.toNat_append, ← Nat.shiftLeft_add_eq_or_of_lt this, Nat.shiftLeft_eq]

theorem highByte_toNat (w : Word) : (highByte w).toNat = w.toNat / 0x100 := by
  have := w.isLt
  simp only [highByte, BitVec.extractLsb'_toNat, Nat.shiftRight_eq_div_pow]
  omega

theorem lowByte_toNat (w : Word) : (lowByte w).toNat = w.toNat % 0x100 := by
  simp only [lowByte, BitVec.extractLsb'_toNat, Nat.shiftRight_eq_div_pow]
  omega

/-- A word is its two bytes, the high one first (20_memory.md R66). -/
@[simp] theorem wordOfBytes_bytes (w : Word) : wordOfBytes (highByte w) (lowByte w) = w := by
  apply BitVec.eq_of_toNat_eq
  rw [wordOfBytes_toNat, highByte_toNat, lowByte_toNat]
  omega

/-! ## The masks of R85 as arithmetic -/

theorem and_F000 (w : Word) : (w &&& (0xF000 : Word)).toNat = w.toNat / 0x1000 * 0x1000 := by
  have h : w &&& (0xF000 : Word) = (w >>> 12) <<< 12 := by
    ext i hi
    simp only [BitVec.getElem_and, BitVec.getElem_shiftLeft]
    interval_cases i <;> simp
  rw [h]
  have := w.isLt
  simp only [BitVec.toNat_shiftLeft, BitVec.toNat_ushiftRight, Nat.shiftLeft_eq, Nat.shiftRight_eq_div_pow]
  omega

theorem and_F00F (w : Word) : (w &&& (0xF00F : Word)).toNat = w.toNat / 0x1000 * 0x1000 + w.toNat % 0x10 := by
  have h : w &&& (0xF00F : Word) = (w &&& (0xF000 : Word)) ||| (w &&& (0xF : Word)) := by
    rw [← BitVec.and_or_distrib_left]; rfl
  have h2 : (w &&& (0xF : Word)).toNat = w.toNat % 0x10 := by
    rw [BitVec.toNat_and]
    exact Nat.and_two_pow_sub_one_eq_mod w.toNat 4
  rw [h, BitVec.toNat_or, and_F000, h2]
  have h3 : w.toNat % 0x10 < 2 ^ 12 := by omega
  have := Nat.shiftLeft_add_eq_or_of_lt h3 (w.toNat / 0x1000)
  rw [Nat.shiftLeft_eq] at this
  exact this.symm

theorem and_F0FF (w : Word) : (w &&& (0xF0FF : Word)).toNat = w.toNat / 0x1000 * 0x1000 + w.toNat % 0x100 := by
  have h : w &&& (0xF0FF : Word) = (w &&& (0xF000 : Word)) ||| (w &&& (0xFF : Word)) := by
    rw [← BitVec.and_or_distrib_left]; rfl
  have h2 : (w &&& (0xFF : Word)).toNat = w.toNat % 0x100 := by
    rw [BitVec.toNat_and]
    exact Nat.and_two_pow_sub_one_eq_mod w.toNat 8
  rw [h, BitVec.toNat_or, and_F000, h2]
  have h3 : w.toNat % 0x100 < 2 ^ 12 := by omega
  have := Nat.shiftLeft_add_eq_or_of_lt h3 (w.toNat / 0x1000)
  rw [Nat.shiftLeft_eq] at this
  exact this.symm

theorem and_FFFF (w : Word) : w &&& (0xFFFF : Word) = w := by
  exact BitVec.and_allOnes

theorem matchesWord_iff (r : OpcodeRow) (w : Word) :
    r.matchesWord w = true ↔ (w &&& r.mask).toNat = r.value.toNat := by
  rw [OpcodeRow.matchesWord, beq_iff_eq]
  exact ⟨fun h => congrArg _ h, BitVec.eq_of_toNat_eq⟩

end Sys2Proof
end

