-- ==== Sys2Proof/Laws/Display.lean ====
section
/-! SUPPORT. The laws of the display: one pixel after a toggle, and what drawing one bit, one row of bits and a sprite
do to every pixel and to the collision flag. -/

namespace Sys2Proof.Machine

@[simp] theorem Display.pixel_clear (x : Fin 64) (y : Fin 32) : Display.pixel Display.clear x y = false := by
  simp [Display.pixel, Display.clear]

/-- A toggle inverts its pixel and no other. -/
theorem Display.pixel_toggle (d : Display) (x x' : Fin 64) (y y' : Fin 32) :
    Display.pixel (Display.toggle d x y) x' y' =
      (Display.pixel d x' y' ^^ decide (x = x' ∧ y = y')) := by
  simp only [Display.pixel, Display.toggle, Fin.getElem_fin, Vector.getElem_set]
  by_cases hy : y = y'
  · subst hy
    by_cases hx : x = x'
    · subst hx; simp
    · have hx' : x.val ≠ x'.val := fun h => hx (Fin.ext h)
      simp [hx, hx']
  · have hy' : y.val ≠ y'.val := fun h => hy (Fin.ext h)
    simp [hy, hy']

/-- Two displays with the same pixels are equal. -/
theorem Display.ext_pixel {d d' : Display} (h : ∀ x y, Display.pixel d x y = Display.pixel d' x y) : d = d' := by
  apply Vector.ext
  intro i hi
  apply Vector.ext
  intro j hj
  exact h ⟨j, hj⟩ ⟨i, hi⟩

/-- What XORing one bit does: the pixel, and the collision flag. -/
theorem drawBit_spec (x x' : Fin 64) (y y' : Fin 32) (bit : Bool) (acc : Display × Bool) :
    Display.pixel (drawBit x y bit acc).1 x' y' =
        (Display.pixel acc.1 x' y' ^^ (bit && decide (x = x' ∧ y = y'))) ∧
      (drawBit x y bit acc).2 = (acc.2 || (bit && Display.pixel acc.1 x y)) := by
  cases bit <;> simp [drawBit, Display.pixel_toggle]

/-! ## Offsets around the edges -/

theorem columnOf_eq_iff (x0 c : Nat) (x : Fin 64) (hc : c < 8) : columnOf (x0 + c) = x ↔ columnOffset x0 x = c := by
  simp only [columnOf, columnOffset, Fin.ext_iff, Fin.ofNat]
  have := x.isLt
  omega

theorem rowOf_eq_iff (y0 : Nat) (y : Fin 32) : rowOf y0 = y ↔ rowOffset y0 y = 0 := by
  simp only [rowOf, rowOffset, Fin.ext_iff, Fin.ofNat]
  have := y.isLt
  omega

theorem rowOffset_succ (y0 : Nat) (y : Fin 32) (h : rowOf y0 ≠ y) : rowOffset y0 y = rowOffset (y0 + 1) y + 1 := by
  rw [Ne, rowOf_eq_iff] at h
  simp only [rowOffset] at h ⊢
  have := y.isLt
  omega

theorem rowOffset_self_succ (y0 : Nat) (y : Fin 32) (h : rowOf y0 = y) : rowOffset (y0 + 1) y = 31 := by
  rw [rowOf_eq_iff] at h
  simp only [rowOffset] at h ⊢
  have := y.isLt
  omega

/-! ## One row of bits -/

/-- The pixels after XORing columns `c` to `c + n - 1` of a sprite byte. -/
theorem drawBits_pixel (x0 y : Nat) (b : Byte) (n c : Nat) (hc : c + n ≤ 8) (acc : Display × Bool) (x' : Fin 64)
    (y' : Fin 32) : Display.pixel (drawBits x0 y b c n acc).1 x' y' =
      (Display.pixel acc.1 x' y' ^^ (decide (rowOf y = y' ∧ c ≤ columnOffset x0 x' ∧ columnOffset x0 x' < c + n) &&
        spriteBit b (columnOffset x0 x'))) := by
  induction n generalizing c acc with
  | zero =>
    have : ¬ (rowOf y = y' ∧ c ≤ columnOffset x0 x' ∧ columnOffset x0 x' < c + 0) := by omega
    rw [decide_eq_false this]
    simp [drawBits]
  | succ n ih =>
    simp only [drawBits]
    rw [ih (c + 1) (by omega), (drawBit_spec ..).1, Bool.xor_assoc]
    congr 1
    by_cases hy : rowOf y = y'
    · by_cases hx : columnOffset x0 x' = c
      · have h1 : columnOf (x0 + c) = x' := (columnOf_eq_iff x0 c x' (by omega)).2 hx
        have h2 : ¬ (c + 1 ≤ c) := by omega
        simp [hy, h1, hx]
      · have h1 : columnOf (x0 + c) ≠ x' := fun h => hx ((columnOf_eq_iff x0 c x' (by omega)).1 h)
        have h2 : (c + 1 ≤ columnOffset x0 x' ∧ columnOffset x0 x' < c + 1 + n) ↔
            (c ≤ columnOffset x0 x' ∧ columnOffset x0 x' < c + (n + 1)) := by omega
        simp only [h1, false_and, decide_false, Bool.and_false, Bool.false_xor]
        congr 1
        exact decide_eq_decide.2 (and_congr_right fun _ => h2)
    · simp [hy]

/-- The collision flag after XORing columns `c` to `c + n - 1` of a sprite byte. -/
theorem drawBits_flag (x0 y : Nat) (b : Byte) (n c : Nat) (hc : c + n ≤ 8) (acc : Display × Bool) :
    (drawBits x0 y b c n acc).2 = true ↔
      acc.2 = true ∨ ∃ x : Fin 64, c ≤ columnOffset x0 x ∧ columnOffset x0 x < c + n ∧
        spriteBit b (columnOffset x0 x) = true ∧ Display.pixel acc.1 x (rowOf y) = true := by
  induction n generalizing c acc with
  | zero =>
    simp only [drawBits, Nat.add_zero]
    constructor
    · exact Or.inl
    · rintro (h | ⟨x, h1, h2, _⟩)
      · exact h
      · omega
  | succ n ih =>
    have hcol := columnOf_eq_iff x0 c
    simp only [drawBits]
    rw [ih (c + 1) (by omega), (drawBit_spec (columnOf (x0 + c)) (columnOf (x0 + c)) (rowOf y) (rowOf y) _ acc).2]
    constructor
    · rintro (h | ⟨x, h1, h2, h3, h4⟩)
      · rw [Bool.or_eq_true, Bool.and_eq_true] at h
        rcases h with h | ⟨hb, hp⟩
        · exact Or.inl h
        · have := (hcol (columnOf (x0 + c)) (by omega)).1 rfl
          exact Or.inr ⟨columnOf (x0 + c), by omega, by omega, by rw [this]; exact hb, hp⟩
      · refine Or.inr ⟨x, by omega, by omega, h3, ?_⟩
        have hne : columnOf (x0 + c) ≠ x := fun h => by have := (hcol x (by omega)).1 h; omega
        rw [(drawBit_spec ..).1] at h4
        simpa [hne] using h4
    · rintro (h | ⟨x, h1, h2, h3, h4⟩)
      · exact Or.inl (by simp [h])
      · by_cases hx : columnOffset x0 x = c
        · have hxe := (hcol x (by omega)).2 hx
          left
          rw [hxe]
          rw [hx] at h3
          simp [h3, h4]
        · refine Or.inr ⟨x, by omega, by omega, h3, ?_⟩
          have hne : columnOf (x0 + c) ≠ x := fun h => hx ((hcol x (by omega)).1 h)
          rw [(drawBit_spec ..).1]
          simpa [hne] using h4

/-! ## A whole sprite -/

theorem spriteCovers_nil (x0 y0 : Nat) (x : Fin 64) (y : Fin 32) : spriteCovers [] x0 y0 x y = false := by
  simp [spriteCovers]

/-- A sprite's first row covers row `y0`, its other rows are the sprite of the rest one row below. -/
theorem spriteCovers_cons (b : Byte) (bs : List Byte) (x0 y0 : Nat) (x : Fin 64) (y : Fin 32) :
    spriteCovers (b :: bs) x0 y0 x y = if rowOf y0 = y then
        decide (columnOffset x0 x < 8) && spriteBit b (columnOffset x0 x)
      else spriteCovers bs x0 (y0 + 1) x y := by
  split
  · next h => simp [spriteCovers, (rowOf_eq_iff y0 y).1 h]
  · next h => simp [spriteCovers, rowOffset_succ y0 y h]

/-- The rest of a sprite does not come back to its first row. -/
theorem spriteCovers_rest (bs : List Byte) (x0 y0 : Nat) (x : Fin 64) (y : Fin 32) (hl : bs.length ≤ 31)
    (h : rowOf y0 = y) : spriteCovers bs x0 (y0 + 1) x y = false := by
  have : bs[31]? = none := List.getElem?_eq_none hl
  simp [spriteCovers, rowOffset_self_succ y0 y h, this]

theorem drawRows_pixel (x0 : Nat) (bs : List Byte) (y0 : Nat) (hl : bs.length ≤ 32) (acc : Display × Bool) (x : Fin 64)
    (y : Fin 32) : Display.pixel (drawRows x0 y0 bs acc).1 x y =
      (Display.pixel acc.1 x y ^^ spriteCovers bs x0 y0 x y) := by
  induction bs generalizing y0 acc with
  | nil => simp [drawRows, spriteCovers_nil]
  | cons b bs ih =>
    have hl' : bs.length ≤ 31 := by rw [List.length_cons] at hl; omega
    simp only [drawRows]
    rw [ih (y0 + 1) (by omega), drawBits_pixel x0 y0 b 8 0 (by omega), spriteCovers_cons b bs x0 y0 x y]
    by_cases h : rowOf y0 = y
    · simp [h, spriteCovers_rest bs x0 y0 x y hl' h]
    · simp [h]

theorem drawRows_flag (x0 : Nat) (bs : List Byte) (y0 : Nat) (hl : bs.length ≤ 32) (acc : Display × Bool) :
    (drawRows x0 y0 bs acc).2 = true ↔ acc.2 = true ∨
      ∃ (x : Fin 64) (y : Fin 32), spriteCovers bs x0 y0 x y = true ∧ Display.pixel acc.1 x y = true := by
  induction bs generalizing y0 acc with
  | nil => simp [drawRows, spriteCovers_nil]
  | cons b bs ih =>
    have hl' : bs.length ≤ 31 := by rw [List.length_cons] at hl; omega
    simp only [drawRows]
    rw [ih (y0 + 1) (by omega), drawBits_flag x0 y0 b 8 0 (by omega)]
    have hpix := drawBits_pixel x0 y0 b 8 0 (by omega) acc
    constructor
    · rintro ((h | ⟨x, _, h2, h3, h4⟩) | ⟨x, y, h1, h2⟩)
      · exact Or.inl h
      · refine Or.inr ⟨x, rowOf y0, ?_, h4⟩
        rw [spriteCovers_cons b bs x0 y0 x _, if_pos rfl]
        simp only [Nat.zero_add] at h2
        simp [h2, h3]
      · by_cases h : rowOf y0 = y
        · rw [spriteCovers_rest bs x0 y0 x y hl' h] at h1
          exact absurd h1 (by simp)
        · rw [hpix] at h2
          refine Or.inr ⟨x, y, ?_, by simpa [h] using h2⟩
          rw [spriteCovers_cons b bs x0 y0 x y, if_neg h]
          exact h1
    · rintro (h | ⟨x, y, h1, h2⟩)
      · exact Or.inl (Or.inl h)
      · rw [spriteCovers_cons b bs x0 y0 x y] at h1
        by_cases h : rowOf y0 = y
        · rw [if_pos h, Bool.and_eq_true, decide_eq_true_eq] at h1
          exact Or.inl (Or.inr ⟨x, by omega, by omega, h1.2, by rw [h]; exact h2⟩)
        · rw [if_neg h] at h1
          refine Or.inr ⟨x, y, h1, ?_⟩
          rw [hpix]
          simpa [h] using h2

/-- What drawing a sprite of at most 32 rows does to every pixel. -/
theorem drawSprite_pixel (d : Display) (x0 y0 : Nat) (sprite : List Byte) (hl : sprite.length ≤ 32) (x : Fin 64)
    (y : Fin 32) : Display.pixel (drawSprite d x0 y0 sprite).1 x y =
      (Display.pixel d x y ^^ spriteCovers sprite x0 y0 x y) :=
  drawRows_pixel x0 sprite y0 hl (d, false) x y

/-- When drawing a sprite of at most 32 rows reports a collision. -/
theorem drawSprite_flag (d : Display) (x0 y0 : Nat) (sprite : List Byte) (hl : sprite.length ≤ 32) :
    (drawSprite d x0 y0 sprite).2 = true ↔
      ∃ (x : Fin 64) (y : Fin 32), spriteCovers sprite x0 y0 x y = true ∧ Display.pixel d x y = true := by
  simpa [drawSprite] using drawRows_flag x0 sprite y0 hl (d, false)

end Sys2Proof.Machine
end

