-- ==== Sys2Proof/Laws/Memory.lean ====
section
/-! SUPPORT. The laws of memory: a read after a write, and the canonical form kept by every operation. -/

namespace Sys2Proof.Machine

/-! ## The canonical form -/

theorem Memory.wfFrom_mono {m : Memory} {lo lo' : Nat} (h : Memory.wfFrom lo' m = true) (hle : lo ≤ lo') :
    Memory.wfFrom lo m = true := by
  cases m with
  | nil => rfl
  | cons c m =>
    obtain ⟨a, b⟩ := c
    simp only [Memory.wfFrom, Bool.and_eq_true, decide_eq_true_eq] at h ⊢
    exact ⟨⟨⟨by omega, h.1.1.2⟩, h.1.2⟩, h.2⟩

/-- An address below all listed ones reads as `Memory.fill`. -/
theorem Memory.read_below {m : Memory} {lo a : Nat} (h : Memory.wfFrom lo m = true) (ha : a < lo) :
    Memory.read m a = Memory.fill := by
  induction m generalizing lo with
  | nil => rfl
  | cons c m ih =>
    obtain ⟨k, b⟩ := c
    simp only [Memory.wfFrom, Bool.and_eq_true, decide_eq_true_eq] at h
    have hk : k ≠ a := by omega
    simp only [Memory.read, hk, if_false]
    exact ih h.2 (by omega)

theorem Memory.wfFrom_write {m : Memory} {lo a : Nat} {b : Byte} (h : Memory.wfFrom lo m = true) (hlo : lo ≤ a)
    (ha : a < memSize) : Memory.wfFrom lo (Memory.write m a b) = true := by
  induction m generalizing lo with
  | nil =>
    simp only [Memory.write]
    split <;> simp_all [Memory.wfFrom]
  | cons c m ih =>
    obtain ⟨k, c⟩ := c
    have h' := h
    simp only [Memory.wfFrom, Bool.and_eq_true, decide_eq_true_eq] at h'
    obtain ⟨⟨⟨hk, hks⟩, hc⟩, hm⟩ := h'
    simp only [Memory.write]
    split
    · next hka =>
      simp only [Memory.wfFrom, Bool.and_eq_true, decide_eq_true_eq]
      exact ⟨⟨⟨hk, hks⟩, hc⟩, ih hm (by omega)⟩
    · split
      · next hka =>
        subst hka
        split
        · exact Memory.wfFrom_mono hm (by omega)
        · next hb => simp [Memory.wfFrom, hk, hks, hb, hm]
      · split
        · exact h
        · next hb =>
          have : Memory.wfFrom (a + 1) ((k, c) :: m) = true := by
            simp only [Memory.wfFrom, Bool.and_eq_true, decide_eq_true_eq]
            exact ⟨⟨⟨by omega, hks⟩, hc⟩, hm⟩
          simp only [Memory.wfFrom] at this
          simp [Memory.wfFrom, hlo, ha, hb]
          simpa using this

/-- A write keeps the canonical form. -/
theorem Memory.wf_write {m : Memory} {a : Nat} {b : Byte} (h : Memory.wf m = true) (ha : a < memSize) :
    Memory.wf (Memory.write m a b) = true :=
  Memory.wfFrom_write h (Nat.zero_le a) ha

/-- A block of writes keeps the canonical form. -/
theorem Memory.wf_writeList {as : List Nat} {bs : List Byte} {m : Memory} (h : Memory.wf m = true)
    (has : ∀ a ∈ as, a < memSize) : Memory.wf (Memory.writeList m as bs) = true := by
  induction as generalizing m bs with
  | nil => simpa [Memory.writeList] using h
  | cons a as ih =>
    cases bs with
    | nil => simpa [Memory.writeList] using h
    | cons b bs =>
      simp only [Memory.writeList]
      exact ih (Memory.wf_write h (has a (by simp))) fun a' ha' => has a' (by simp [ha'])

/-- A consecutive block of writes inside memory keeps the canonical form. -/
theorem Memory.wf_writeBlock {bs : List Byte} {m : Memory} {base : Nat} (h : Memory.wf m = true)
    (hb : base + bs.length ≤ memSize) : Memory.wf (Memory.writeBlock m base bs) = true := by
  induction bs generalizing m base with
  | nil => simpa [Memory.writeBlock] using h
  | cons b bs ih =>
    simp only [List.length_cons] at hb
    simp only [Memory.writeBlock]
    exact ih (Memory.wf_write h (by omega)) (by omega)

/-- A tabulated memory is canonical. -/
theorem Memory.wfFrom_tabulate (f : Nat → Byte) (n base : Nat) (h : base + n ≤ memSize) :
    Memory.wfFrom base (Memory.tabulate f base n) = true := by
  induction n generalizing base with
  | zero => rfl
  | succ n ih =>
    simp only [Memory.tabulate]
    split
    · exact Memory.wfFrom_mono (ih (base + 1) (by omega)) (by omega)
    · next hf =>
      have hb : base < memSize := by omega
      simp [Memory.wfFrom, hb, hf, ih (base + 1) (by omega)]

/-! ## Reads after writes -/

/-- What a canonical memory reads after a write, at every address. -/
theorem Memory.read_write_from {m : Memory} {lo : Nat} (h : Memory.wfFrom lo m = true) (a a' : Nat) (b : Byte) :
    Memory.read (Memory.write m a b) a' = if a = a' then b else Memory.read m a' := by
  induction m generalizing lo with
  | nil =>
    by_cases hb : b = Memory.fill <;> simp [Memory.write, Memory.read, hb]
  | cons c m ih =>
    obtain ⟨k, c⟩ := c
    simp only [Memory.wfFrom, Bool.and_eq_true, decide_eq_true_eq] at h
    obtain ⟨⟨⟨_, _⟩, _⟩, hm⟩ := h
    have hlow : ∀ x, x ≤ k → Memory.read m x = Memory.fill := fun x hx => Memory.read_below hm (by omega)
    simp only [Memory.write]
    split
    · next hka =>
      by_cases h1 : k = a'
      · have : a ≠ a' := by omega
        simp [Memory.read, h1, this]
      · simp [Memory.read, h1, ih hm]
    · split
      · next hka =>
        subst hka
        by_cases h1 : k = a' <;> by_cases hb : b = Memory.fill
        · subst h1; simp [hb, hlow k (Nat.le_refl k)]
        · simp [Memory.read, h1, hb]
        · simp [Memory.read, h1, hb]
        · simp [Memory.read, h1, hb]
      · next hk1 hk2 =>
        by_cases hb : b = Memory.fill
        · by_cases h1 : a = a'
          · subst h1; simp [Memory.read, hb, hk2, hlow a (by omega)]
          · simp [hb, h1]
        · by_cases h1 : a = a' <;> simp [Memory.read, hb, h1]

/-- What a canonical memory reads after a write. -/
theorem Memory.read_write {m : Memory} (h : Memory.wf m = true) (a a' : Nat) (b : Byte) :
    Memory.read (Memory.write m a b) a' = if a = a' then b else Memory.read m a' :=
  Memory.read_write_from h a a' b

/-- A write leaves every other byte alone, in any memory. -/
theorem Memory.read_write_other (m : Memory) {a a' : Nat} (b : Byte) (h : a ≠ a') :
    Memory.read (Memory.write m a b) a' = Memory.read m a' := by
  induction m with
  | nil => by_cases hb : b = Memory.fill <;> simp [Memory.write, Memory.read, hb, h]
  | cons c m ih =>
    obtain ⟨k, c⟩ := c
    simp only [Memory.write]
    split
    · simp [Memory.read, ih]
    · split
      · next hka => subst hka; by_cases hb : b = Memory.fill <;> simp [Memory.read, hb, h]
      · by_cases hb : b = Memory.fill <;> simp [Memory.read, hb, h]

/-- A block of writes leaves every byte outside it alone. -/
theorem Memory.read_writeList_other {as : List Nat} {bs : List Byte} {m : Memory} {a : Nat} (h : a ∉ as) :
    Memory.read (Memory.writeList m as bs) a = Memory.read m a := by
  induction as generalizing m bs with
  | nil => simp [Memory.writeList]
  | cons a0 as ih =>
    cases bs with
    | nil => simp [Memory.writeList]
    | cons b bs =>
      simp only [List.mem_cons, not_or] at h
      simp only [Memory.writeList]
      rw [ih h.2, Memory.read_write_other _ _ (Ne.symm h.1)]

/-- A block of writes at distinct addresses puts each byte at its address. -/
theorem Memory.read_writeList_mem {as : List Nat} {bs : List Byte} {m : Memory} (hwf : Memory.wf m = true)
    (hin : ∀ a ∈ as, a < memSize) (hnd : as.Nodup) (hlen : as.length = bs.length) (k : Nat) (hk : k < as.length) :
    Memory.read (Memory.writeList m as bs) as[k] = bs[k]'(hlen ▸ hk) := by
  induction as generalizing m bs k with
  | nil => simp at hk
  | cons a0 as ih =>
    cases bs with
    | nil => simp at hlen
    | cons b bs =>
      have h0 : a0 < memSize := hin a0 (by simp)
      simp only [List.nodup_cons] at hnd
      simp only [Memory.writeList]
      cases k with
      | zero =>
        simp only [List.getElem_cons_zero]
        rw [Memory.read_writeList_other hnd.1, Memory.read_write hwf]
        simp
      | succ k =>
        simp only [List.getElem_cons_succ]
        exact ih (Memory.wf_write hwf h0) (fun a ha => hin a (by simp [ha])) hnd.2
          (by simpa using hlen) k (by simpa using hk)

/-- A consecutive block puts byte `k` at `base + k` and leaves every other byte alone. -/
theorem Memory.read_writeBlock {bs : List Byte} {m : Memory} {base : Nat} (hwf : Memory.wf m = true)
    (hb : base + bs.length ≤ memSize) (a : Nat) :
    Memory.read (Memory.writeBlock m base bs) a =
      if h : base ≤ a ∧ a < base + bs.length then bs[a - base]'(by omega) else Memory.read m a := by
  induction bs generalizing m base with
  | nil =>
    have : ¬ (base ≤ a ∧ a < base + ([] : List Byte).length) := by simp
    rw [dif_neg this]; rfl
  | cons b bs ih =>
    simp only [List.length_cons] at hb
    simp only [Memory.writeBlock]
    rw [ih (Memory.wf_write hwf (by omega)) (by omega), Memory.read_write hwf]
    by_cases h1 : base = a
    · subst h1; simp
    · by_cases h2 : base + 1 ≤ a ∧ a < base + 1 + bs.length
      · have h3 : base ≤ a ∧ a < base + (b :: bs).length := by simp only [List.length_cons]; omega
        have h4 : a - base = (a - (base + 1)) + 1 := by omega
        rw [dif_pos h2, dif_pos h3]
        simp [h4]
      · have h3 : ¬ (base ≤ a ∧ a < base + (b :: bs).length) := by simp only [List.length_cons]; omega
        rw [dif_neg h2, dif_neg h3, if_neg h1]

/-- A tabulated memory holds `f` on its range and the fill elsewhere. -/
theorem Memory.read_tabulate (f : Nat → Byte) (n base a : Nat) :
    Memory.read (Memory.tabulate f base n) a = if base ≤ a ∧ a < base + n then f a else Memory.fill := by
  induction n generalizing base with
  | zero => rw [if_neg (by omega)]; rfl
  | succ n ih =>
    simp only [Memory.tabulate]
    split
    · next h =>
      rw [ih]
      by_cases hb : base = a
      · subst hb; rw [if_neg (by omega), if_pos (by omega), h]
      · by_cases h2 : base + 1 ≤ a ∧ a < base + 1 + n
        · rw [if_pos h2, if_pos (by omega)]
        · rw [if_neg h2, if_neg (by omega)]
    · simp only [Memory.read]
      by_cases hb : base = a
      · subst hb; rw [if_pos rfl, if_pos (by omega)]
      · rw [if_neg hb, ih]
        by_cases h2 : base + 1 ≤ a ∧ a < base + 1 + n
        · rw [if_pos h2, if_pos (by omega)]
        · rw [if_neg h2, if_neg (by omega)]

end Sys2Proof.Machine
end

