-- ==== Sys2Proof/Laws/State.lean ====
section
/-! SUPPORT. What each update of State does to each field, one lemma per field, so that no later proof unfolds a record
update. -/

namespace Sys2Proof.Machine

/-! ## `setV` -/

@[simp] theorem setV_v (x : Reg) (b : Byte) (s : State) : (setV x b s).v = s.v.set x.val b x.isLt := rfl
@[simp] theorem setV_index (x : Reg) (b : Byte) (s : State) : (setV x b s).index = s.index := rfl
@[simp] theorem setV_pc (x : Reg) (b : Byte) (s : State) : (setV x b s).pc = s.pc := rfl
@[simp] theorem setV_sp (x : Reg) (b : Byte) (s : State) : (setV x b s).sp = s.sp := rfl
@[simp] theorem setV_stack (x : Reg) (b : Byte) (s : State) : (setV x b s).stack = s.stack := rfl
@[simp] theorem setV_dt (x : Reg) (b : Byte) (s : State) : (setV x b s).dt = s.dt := rfl
@[simp] theorem setV_st (x : Reg) (b : Byte) (s : State) : (setV x b s).st = s.st := rfl
@[simp] theorem setV_disp (x : Reg) (b : Byte) (s : State) : (setV x b s).disp = s.disp := rfl
@[simp] theorem setV_key (x : Reg) (b : Byte) (s : State) : (setV x b s).key = s.key := rfl
@[simp] theorem setV_run (x : Reg) (b : Byte) (s : State) : (setV x b s).run = s.run := rfl
@[simp] theorem setV_waitReg (x : Reg) (b : Byte) (s : State) : (setV x b s).waitReg = s.waitReg := rfl
@[simp] theorem setV_fault (x : Reg) (b : Byte) (s : State) : (setV x b s).fault = s.fault := rfl
@[simp] theorem setV_mem (x : Reg) (b : Byte) (s : State) : (setV x b s).mem = s.mem := rfl
@[simp] theorem setV_boot (x : Reg) (b : Byte) (s : State) : (setV x b s).boot = s.boot := rfl
@[simp] theorem setV_cfg (x : Reg) (b : Byte) (s : State) : (setV x b s).cfg = s.cfg := rfl
@[simp] theorem setV_pending (x : Reg) (b : Byte) (s : State) : (setV x b s).pending = s.pending := rfl
@[simp] theorem setV_rand (x : Reg) (b : Byte) (s : State) : (setV x b s).rand = s.rand := rfl
@[simp] theorem setV_draws (x : Reg) (b : Byte) (s : State) : (setV x b s).draws = s.draws := rfl

/-! ## `jumpTo` -/

@[simp] theorem jumpTo_v (a : Word) (s : State) : (jumpTo a s).v = s.v := rfl
@[simp] theorem jumpTo_index (a : Word) (s : State) : (jumpTo a s).index = s.index := rfl
@[simp] theorem jumpTo_pc (a : Word) (s : State) : (jumpTo a s).pc = a := rfl
@[simp] theorem jumpTo_sp (a : Word) (s : State) : (jumpTo a s).sp = s.sp := rfl
@[simp] theorem jumpTo_stack (a : Word) (s : State) : (jumpTo a s).stack = s.stack := rfl
@[simp] theorem jumpTo_dt (a : Word) (s : State) : (jumpTo a s).dt = s.dt := rfl
@[simp] theorem jumpTo_st (a : Word) (s : State) : (jumpTo a s).st = s.st := rfl
@[simp] theorem jumpTo_disp (a : Word) (s : State) : (jumpTo a s).disp = s.disp := rfl
@[simp] theorem jumpTo_key (a : Word) (s : State) : (jumpTo a s).key = s.key := rfl
@[simp] theorem jumpTo_run (a : Word) (s : State) : (jumpTo a s).run = s.run := rfl
@[simp] theorem jumpTo_waitReg (a : Word) (s : State) : (jumpTo a s).waitReg = s.waitReg := rfl
@[simp] theorem jumpTo_fault (a : Word) (s : State) : (jumpTo a s).fault = s.fault := rfl
@[simp] theorem jumpTo_mem (a : Word) (s : State) : (jumpTo a s).mem = s.mem := rfl
@[simp] theorem jumpTo_boot (a : Word) (s : State) : (jumpTo a s).boot = s.boot := rfl
@[simp] theorem jumpTo_cfg (a : Word) (s : State) : (jumpTo a s).cfg = s.cfg := rfl
@[simp] theorem jumpTo_pending (a : Word) (s : State) : (jumpTo a s).pending = s.pending := rfl
@[simp] theorem jumpTo_rand (a : Word) (s : State) : (jumpTo a s).rand = s.rand := rfl
@[simp] theorem jumpTo_draws (a : Word) (s : State) : (jumpTo a s).draws = s.draws := rfl

/-! ## `advance` -/

@[simp] theorem advance_v (d : Word) (s : State) : (advance d s).v = s.v := rfl
@[simp] theorem advance_index (d : Word) (s : State) : (advance d s).index = s.index := rfl
@[simp] theorem advance_pc (d : Word) (s : State) : (advance d s).pc = s.pc + d := rfl
@[simp] theorem advance_sp (d : Word) (s : State) : (advance d s).sp = s.sp := rfl
@[simp] theorem advance_stack (d : Word) (s : State) : (advance d s).stack = s.stack := rfl
@[simp] theorem advance_dt (d : Word) (s : State) : (advance d s).dt = s.dt := rfl
@[simp] theorem advance_st (d : Word) (s : State) : (advance d s).st = s.st := rfl
@[simp] theorem advance_disp (d : Word) (s : State) : (advance d s).disp = s.disp := rfl
@[simp] theorem advance_key (d : Word) (s : State) : (advance d s).key = s.key := rfl
@[simp] theorem advance_run (d : Word) (s : State) : (advance d s).run = s.run := rfl
@[simp] theorem advance_waitReg (d : Word) (s : State) : (advance d s).waitReg = s.waitReg := rfl
@[simp] theorem advance_fault (d : Word) (s : State) : (advance d s).fault = s.fault := rfl
@[simp] theorem advance_mem (d : Word) (s : State) : (advance d s).mem = s.mem := rfl
@[simp] theorem advance_boot (d : Word) (s : State) : (advance d s).boot = s.boot := rfl
@[simp] theorem advance_cfg (d : Word) (s : State) : (advance d s).cfg = s.cfg := rfl
@[simp] theorem advance_pending (d : Word) (s : State) : (advance d s).pending = s.pending := rfl
@[simp] theorem advance_rand (d : Word) (s : State) : (advance d s).rand = s.rand := rfl
@[simp] theorem advance_draws (d : Word) (s : State) : (advance d s).draws = s.draws := rfl

/-! ## `advance2` -/

@[simp] theorem advance2_v (s : State) : (advance2 s).v = s.v := rfl
@[simp] theorem advance2_index (s : State) : (advance2 s).index = s.index := rfl
@[simp] theorem advance2_pc (s : State) : (advance2 s).pc = s.pc + 2 := rfl
@[simp] theorem advance2_sp (s : State) : (advance2 s).sp = s.sp := rfl
@[simp] theorem advance2_stack (s : State) : (advance2 s).stack = s.stack := rfl
@[simp] theorem advance2_dt (s : State) : (advance2 s).dt = s.dt := rfl
@[simp] theorem advance2_st (s : State) : (advance2 s).st = s.st := rfl
@[simp] theorem advance2_disp (s : State) : (advance2 s).disp = s.disp := rfl
@[simp] theorem advance2_key (s : State) : (advance2 s).key = s.key := rfl
@[simp] theorem advance2_run (s : State) : (advance2 s).run = s.run := rfl
@[simp] theorem advance2_waitReg (s : State) : (advance2 s).waitReg = s.waitReg := rfl
@[simp] theorem advance2_fault (s : State) : (advance2 s).fault = s.fault := rfl
@[simp] theorem advance2_mem (s : State) : (advance2 s).mem = s.mem := rfl
@[simp] theorem advance2_boot (s : State) : (advance2 s).boot = s.boot := rfl
@[simp] theorem advance2_cfg (s : State) : (advance2 s).cfg = s.cfg := rfl
@[simp] theorem advance2_pending (s : State) : (advance2 s).pending = s.pending := rfl
@[simp] theorem advance2_rand (s : State) : (advance2 s).rand = s.rand := rfl
@[simp] theorem advance2_draws (s : State) : (advance2 s).draws = s.draws := rfl

/-! ## `skipIf` -/

@[simp] theorem skipIf_v (c : Bool) (s : State) : (skipIf c s).v = s.v := by cases c <;> rfl
@[simp] theorem skipIf_index (c : Bool) (s : State) : (skipIf c s).index = s.index := by cases c <;> rfl
@[simp] theorem skipIf_pc (c : Bool) (s : State) : (skipIf c s).pc = s.pc + (if c then 4 else 2) := by cases c <;> rfl
@[simp] theorem skipIf_sp (c : Bool) (s : State) : (skipIf c s).sp = s.sp := by cases c <;> rfl
@[simp] theorem skipIf_stack (c : Bool) (s : State) : (skipIf c s).stack = s.stack := by cases c <;> rfl
@[simp] theorem skipIf_dt (c : Bool) (s : State) : (skipIf c s).dt = s.dt := by cases c <;> rfl
@[simp] theorem skipIf_st (c : Bool) (s : State) : (skipIf c s).st = s.st := by cases c <;> rfl
@[simp] theorem skipIf_disp (c : Bool) (s : State) : (skipIf c s).disp = s.disp := by cases c <;> rfl
@[simp] theorem skipIf_key (c : Bool) (s : State) : (skipIf c s).key = s.key := by cases c <;> rfl
@[simp] theorem skipIf_run (c : Bool) (s : State) : (skipIf c s).run = s.run := by cases c <;> rfl
@[simp] theorem skipIf_waitReg (c : Bool) (s : State) : (skipIf c s).waitReg = s.waitReg := by cases c <;> rfl
@[simp] theorem skipIf_fault (c : Bool) (s : State) : (skipIf c s).fault = s.fault := by cases c <;> rfl
@[simp] theorem skipIf_mem (c : Bool) (s : State) : (skipIf c s).mem = s.mem := by cases c <;> rfl
@[simp] theorem skipIf_boot (c : Bool) (s : State) : (skipIf c s).boot = s.boot := by cases c <;> rfl
@[simp] theorem skipIf_cfg (c : Bool) (s : State) : (skipIf c s).cfg = s.cfg := by cases c <;> rfl
@[simp] theorem skipIf_pending (c : Bool) (s : State) : (skipIf c s).pending = s.pending := by cases c <;> rfl
@[simp] theorem skipIf_rand (c : Bool) (s : State) : (skipIf c s).rand = s.rand := by cases c <;> rfl
@[simp] theorem skipIf_draws (c : Bool) (s : State) : (skipIf c s).draws = s.draws := by cases c <;> rfl

/-! ## `setIndex` -/

@[simp] theorem setIndex_v (a : Word) (s : State) : (setIndex a s).v = s.v := rfl
@[simp] theorem setIndex_index (a : Word) (s : State) : (setIndex a s).index = a := rfl
@[simp] theorem setIndex_pc (a : Word) (s : State) : (setIndex a s).pc = s.pc := rfl
@[simp] theorem setIndex_sp (a : Word) (s : State) : (setIndex a s).sp = s.sp := rfl
@[simp] theorem setIndex_stack (a : Word) (s : State) : (setIndex a s).stack = s.stack := rfl
@[simp] theorem setIndex_dt (a : Word) (s : State) : (setIndex a s).dt = s.dt := rfl
@[simp] theorem setIndex_st (a : Word) (s : State) : (setIndex a s).st = s.st := rfl
@[simp] theorem setIndex_disp (a : Word) (s : State) : (setIndex a s).disp = s.disp := rfl
@[simp] theorem setIndex_key (a : Word) (s : State) : (setIndex a s).key = s.key := rfl
@[simp] theorem setIndex_run (a : Word) (s : State) : (setIndex a s).run = s.run := rfl
@[simp] theorem setIndex_waitReg (a : Word) (s : State) : (setIndex a s).waitReg = s.waitReg := rfl
@[simp] theorem setIndex_fault (a : Word) (s : State) : (setIndex a s).fault = s.fault := rfl
@[simp] theorem setIndex_mem (a : Word) (s : State) : (setIndex a s).mem = s.mem := rfl
@[simp] theorem setIndex_boot (a : Word) (s : State) : (setIndex a s).boot = s.boot := rfl
@[simp] theorem setIndex_cfg (a : Word) (s : State) : (setIndex a s).cfg = s.cfg := rfl
@[simp] theorem setIndex_pending (a : Word) (s : State) : (setIndex a s).pending = s.pending := rfl
@[simp] theorem setIndex_rand (a : Word) (s : State) : (setIndex a s).rand = s.rand := rfl
@[simp] theorem setIndex_draws (a : Word) (s : State) : (setIndex a s).draws = s.draws := rfl

/-! ## `recordFault` -/

@[simp] theorem recordFault_v (k : FaultKind) (w : Option Word) (s : State) : (recordFault k w s).v = s.v := rfl
@[simp] theorem recordFault_index (k : FaultKind) (w : Option Word) (s : State) : (recordFault k w s).index = s.index := rfl
@[simp] theorem recordFault_pc (k : FaultKind) (w : Option Word) (s : State) : (recordFault k w s).pc = s.pc := rfl
@[simp] theorem recordFault_sp (k : FaultKind) (w : Option Word) (s : State) : (recordFault k w s).sp = s.sp := rfl
@[simp] theorem recordFault_stack (k : FaultKind) (w : Option Word) (s : State) : (recordFault k w s).stack = s.stack := rfl
@[simp] theorem recordFault_dt (k : FaultKind) (w : Option Word) (s : State) : (recordFault k w s).dt = s.dt := rfl
@[simp] theorem recordFault_st (k : FaultKind) (w : Option Word) (s : State) : (recordFault k w s).st = s.st := rfl
@[simp] theorem recordFault_disp (k : FaultKind) (w : Option Word) (s : State) : (recordFault k w s).disp = s.disp := rfl
@[simp] theorem recordFault_key (k : FaultKind) (w : Option Word) (s : State) : (recordFault k w s).key = s.key := rfl
@[simp] theorem recordFault_run (k : FaultKind) (w : Option Word) (s : State) : (recordFault k w s).run = s.run := rfl
@[simp] theorem recordFault_waitReg (k : FaultKind) (w : Option Word) (s : State) : (recordFault k w s).waitReg = s.waitReg := rfl
@[simp] theorem recordFault_fault (k : FaultKind) (w : Option Word) (s : State) : (recordFault k w s).fault = some ⟨k, s.pc, w⟩ := rfl
@[simp] theorem recordFault_mem (k : FaultKind) (w : Option Word) (s : State) : (recordFault k w s).mem = s.mem := rfl
@[simp] theorem recordFault_boot (k : FaultKind) (w : Option Word) (s : State) : (recordFault k w s).boot = s.boot := rfl
@[simp] theorem recordFault_cfg (k : FaultKind) (w : Option Word) (s : State) : (recordFault k w s).cfg = s.cfg := rfl
@[simp] theorem recordFault_pending (k : FaultKind) (w : Option Word) (s : State) : (recordFault k w s).pending = s.pending := rfl
@[simp] theorem recordFault_rand (k : FaultKind) (w : Option Word) (s : State) : (recordFault k w s).rand = s.rand := rfl
@[simp] theorem recordFault_draws (k : FaultKind) (w : Option Word) (s : State) : (recordFault k w s).draws = s.draws := rfl

/-! ## `storeAll` -/

@[simp] theorem storeAll_v (as : List Nat) (bs : List Byte) (s : State) : (storeAll as bs s).v = s.v := rfl
@[simp] theorem storeAll_index (as : List Nat) (bs : List Byte) (s : State) : (storeAll as bs s).index = s.index := rfl
@[simp] theorem storeAll_pc (as : List Nat) (bs : List Byte) (s : State) : (storeAll as bs s).pc = s.pc := rfl
@[simp] theorem storeAll_sp (as : List Nat) (bs : List Byte) (s : State) : (storeAll as bs s).sp = s.sp := rfl
@[simp] theorem storeAll_stack (as : List Nat) (bs : List Byte) (s : State) : (storeAll as bs s).stack = s.stack := rfl
@[simp] theorem storeAll_dt (as : List Nat) (bs : List Byte) (s : State) : (storeAll as bs s).dt = s.dt := rfl
@[simp] theorem storeAll_st (as : List Nat) (bs : List Byte) (s : State) : (storeAll as bs s).st = s.st := rfl
@[simp] theorem storeAll_disp (as : List Nat) (bs : List Byte) (s : State) : (storeAll as bs s).disp = s.disp := rfl
@[simp] theorem storeAll_key (as : List Nat) (bs : List Byte) (s : State) : (storeAll as bs s).key = s.key := rfl
@[simp] theorem storeAll_run (as : List Nat) (bs : List Byte) (s : State) : (storeAll as bs s).run = s.run := rfl
@[simp] theorem storeAll_waitReg (as : List Nat) (bs : List Byte) (s : State) : (storeAll as bs s).waitReg = s.waitReg := rfl
@[simp] theorem storeAll_fault (as : List Nat) (bs : List Byte) (s : State) : (storeAll as bs s).fault = s.fault := rfl
@[simp] theorem storeAll_mem (as : List Nat) (bs : List Byte) (s : State) : (storeAll as bs s).mem = Memory.writeList s.mem as bs := rfl
@[simp] theorem storeAll_boot (as : List Nat) (bs : List Byte) (s : State) : (storeAll as bs s).boot = s.boot := rfl
@[simp] theorem storeAll_cfg (as : List Nat) (bs : List Byte) (s : State) : (storeAll as bs s).cfg = s.cfg := rfl
@[simp] theorem storeAll_pending (as : List Nat) (bs : List Byte) (s : State) : (storeAll as bs s).pending = s.pending := rfl
@[simp] theorem storeAll_rand (as : List Nat) (bs : List Byte) (s : State) : (storeAll as bs s).rand = s.rand := rfl
@[simp] theorem storeAll_draws (as : List Nat) (bs : List Byte) (s : State) : (storeAll as bs s).draws = s.draws := rfl

/-! ## `consumeRandom` -/

@[simp] theorem consumeRandom_v (s : State) : (consumeRandom s).v = s.v := rfl
@[simp] theorem consumeRandom_index (s : State) : (consumeRandom s).index = s.index := rfl
@[simp] theorem consumeRandom_pc (s : State) : (consumeRandom s).pc = s.pc := rfl
@[simp] theorem consumeRandom_sp (s : State) : (consumeRandom s).sp = s.sp := rfl
@[simp] theorem consumeRandom_stack (s : State) : (consumeRandom s).stack = s.stack := rfl
@[simp] theorem consumeRandom_dt (s : State) : (consumeRandom s).dt = s.dt := rfl
@[simp] theorem consumeRandom_st (s : State) : (consumeRandom s).st = s.st := rfl
@[simp] theorem consumeRandom_disp (s : State) : (consumeRandom s).disp = s.disp := rfl
@[simp] theorem consumeRandom_key (s : State) : (consumeRandom s).key = s.key := rfl
@[simp] theorem consumeRandom_run (s : State) : (consumeRandom s).run = s.run := rfl
@[simp] theorem consumeRandom_waitReg (s : State) : (consumeRandom s).waitReg = s.waitReg := rfl
@[simp] theorem consumeRandom_fault (s : State) : (consumeRandom s).fault = s.fault := rfl
@[simp] theorem consumeRandom_mem (s : State) : (consumeRandom s).mem = s.mem := rfl
@[simp] theorem consumeRandom_boot (s : State) : (consumeRandom s).boot = s.boot := rfl
@[simp] theorem consumeRandom_cfg (s : State) : (consumeRandom s).cfg = s.cfg := rfl
@[simp] theorem consumeRandom_pending (s : State) : (consumeRandom s).pending = s.pending := rfl
@[simp] theorem consumeRandom_rand (s : State) : (consumeRandom s).rand = s.rand.tail := rfl
@[simp] theorem consumeRandom_draws (s : State) : (consumeRandom s).draws = s.draws + 1 := rfl

/-! ## `incrementIndex` -/

@[simp] theorem incrementIndex_v (x : Reg) (s : State) : (incrementIndex x s).v = s.v := by unfold incrementIndex; split <;> rfl
@[simp] theorem incrementIndex_index (x : Reg) (s : State) : (incrementIndex x s).index = if s.cfg.lsIncrementI then s.index + BitVec.ofNat 16 (x.val + 1) else s.index := by unfold incrementIndex; split <;> rfl
@[simp] theorem incrementIndex_pc (x : Reg) (s : State) : (incrementIndex x s).pc = s.pc := by unfold incrementIndex; split <;> rfl
@[simp] theorem incrementIndex_sp (x : Reg) (s : State) : (incrementIndex x s).sp = s.sp := by unfold incrementIndex; split <;> rfl
@[simp] theorem incrementIndex_stack (x : Reg) (s : State) : (incrementIndex x s).stack = s.stack := by unfold incrementIndex; split <;> rfl
@[simp] theorem incrementIndex_dt (x : Reg) (s : State) : (incrementIndex x s).dt = s.dt := by unfold incrementIndex; split <;> rfl
@[simp] theorem incrementIndex_st (x : Reg) (s : State) : (incrementIndex x s).st = s.st := by unfold incrementIndex; split <;> rfl
@[simp] theorem incrementIndex_disp (x : Reg) (s : State) : (incrementIndex x s).disp = s.disp := by unfold incrementIndex; split <;> rfl
@[simp] theorem incrementIndex_key (x : Reg) (s : State) : (incrementIndex x s).key = s.key := by unfold incrementIndex; split <;> rfl
@[simp] theorem incrementIndex_run (x : Reg) (s : State) : (incrementIndex x s).run = s.run := by unfold incrementIndex; split <;> rfl
@[simp] theorem incrementIndex_waitReg (x : Reg) (s : State) : (incrementIndex x s).waitReg = s.waitReg := by unfold incrementIndex; split <;> rfl
@[simp] theorem incrementIndex_fault (x : Reg) (s : State) : (incrementIndex x s).fault = s.fault := by unfold incrementIndex; split <;> rfl
@[simp] theorem incrementIndex_mem (x : Reg) (s : State) : (incrementIndex x s).mem = s.mem := by unfold incrementIndex; split <;> rfl
@[simp] theorem incrementIndex_boot (x : Reg) (s : State) : (incrementIndex x s).boot = s.boot := by unfold incrementIndex; split <;> rfl
@[simp] theorem incrementIndex_cfg (x : Reg) (s : State) : (incrementIndex x s).cfg = s.cfg := by unfold incrementIndex; split <;> rfl
@[simp] theorem incrementIndex_pending (x : Reg) (s : State) : (incrementIndex x s).pending = s.pending := by unfold incrementIndex; split <;> rfl
@[simp] theorem incrementIndex_rand (x : Reg) (s : State) : (incrementIndex x s).rand = s.rand := by unfold incrementIndex; split <;> rfl
@[simp] theorem incrementIndex_draws (x : Reg) (s : State) : (incrementIndex x s).draws = s.draws := by unfold incrementIndex; split <;> rfl

/-! ## `writeFlagged` -/

@[simp] theorem writeFlagged_index (x : Reg) (r : Byte) (f : Bool) (s : State) : (writeFlagged x r f s).index = s.index := by unfold writeFlagged; split <;> rfl
@[simp] theorem writeFlagged_pc (x : Reg) (r : Byte) (f : Bool) (s : State) : (writeFlagged x r f s).pc = s.pc := by unfold writeFlagged; split <;> rfl
@[simp] theorem writeFlagged_sp (x : Reg) (r : Byte) (f : Bool) (s : State) : (writeFlagged x r f s).sp = s.sp := by unfold writeFlagged; split <;> rfl
@[simp] theorem writeFlagged_stack (x : Reg) (r : Byte) (f : Bool) (s : State) : (writeFlagged x r f s).stack = s.stack := by unfold writeFlagged; split <;> rfl
@[simp] theorem writeFlagged_dt (x : Reg) (r : Byte) (f : Bool) (s : State) : (writeFlagged x r f s).dt = s.dt := by unfold writeFlagged; split <;> rfl
@[simp] theorem writeFlagged_st (x : Reg) (r : Byte) (f : Bool) (s : State) : (writeFlagged x r f s).st = s.st := by unfold writeFlagged; split <;> rfl
@[simp] theorem writeFlagged_disp (x : Reg) (r : Byte) (f : Bool) (s : State) : (writeFlagged x r f s).disp = s.disp := by unfold writeFlagged; split <;> rfl
@[simp] theorem writeFlagged_key (x : Reg) (r : Byte) (f : Bool) (s : State) : (writeFlagged x r f s).key = s.key := by unfold writeFlagged; split <;> rfl
@[simp] theorem writeFlagged_run (x : Reg) (r : Byte) (f : Bool) (s : State) : (writeFlagged x r f s).run = s.run := by unfold writeFlagged; split <;> rfl
@[simp] theorem writeFlagged_waitReg (x : Reg) (r : Byte) (f : Bool) (s : State) : (writeFlagged x r f s).waitReg = s.waitReg := by unfold writeFlagged; split <;> rfl
@[simp] theorem writeFlagged_fault (x : Reg) (r : Byte) (f : Bool) (s : State) : (writeFlagged x r f s).fault = s.fault := by unfold writeFlagged; split <;> rfl
@[simp] theorem writeFlagged_mem (x : Reg) (r : Byte) (f : Bool) (s : State) : (writeFlagged x r f s).mem = s.mem := by unfold writeFlagged; split <;> rfl
@[simp] theorem writeFlagged_boot (x : Reg) (r : Byte) (f : Bool) (s : State) : (writeFlagged x r f s).boot = s.boot := by unfold writeFlagged; split <;> rfl
@[simp] theorem writeFlagged_cfg (x : Reg) (r : Byte) (f : Bool) (s : State) : (writeFlagged x r f s).cfg = s.cfg := by unfold writeFlagged; split <;> rfl
@[simp] theorem writeFlagged_pending (x : Reg) (r : Byte) (f : Bool) (s : State) : (writeFlagged x r f s).pending = s.pending := by unfold writeFlagged; split <;> rfl
@[simp] theorem writeFlagged_rand (x : Reg) (r : Byte) (f : Bool) (s : State) : (writeFlagged x r f s).rand = s.rand := by unfold writeFlagged; split <;> rfl
@[simp] theorem writeFlagged_draws (x : Reg) (r : Byte) (f : Bool) (s : State) : (writeFlagged x r f s).draws = s.draws := by unfold writeFlagged; split <;> rfl

/-! ## `drawAt` -/

@[simp] theorem drawAt_v (x0 y0 : Nat) (sprite : List Byte) (s : State) : (drawAt x0 y0 sprite s).v = s.v.set VF.val (flagByte (drawSprite s.disp x0 y0 sprite).2) VF.isLt := rfl
@[simp] theorem drawAt_index (x0 y0 : Nat) (sprite : List Byte) (s : State) : (drawAt x0 y0 sprite s).index = s.index := rfl
@[simp] theorem drawAt_pc (x0 y0 : Nat) (sprite : List Byte) (s : State) : (drawAt x0 y0 sprite s).pc = s.pc := rfl
@[simp] theorem drawAt_sp (x0 y0 : Nat) (sprite : List Byte) (s : State) : (drawAt x0 y0 sprite s).sp = s.sp := rfl
@[simp] theorem drawAt_stack (x0 y0 : Nat) (sprite : List Byte) (s : State) : (drawAt x0 y0 sprite s).stack = s.stack := rfl
@[simp] theorem drawAt_dt (x0 y0 : Nat) (sprite : List Byte) (s : State) : (drawAt x0 y0 sprite s).dt = s.dt := rfl
@[simp] theorem drawAt_st (x0 y0 : Nat) (sprite : List Byte) (s : State) : (drawAt x0 y0 sprite s).st = s.st := rfl
@[simp] theorem drawAt_disp (x0 y0 : Nat) (sprite : List Byte) (s : State) : (drawAt x0 y0 sprite s).disp = (drawSprite s.disp x0 y0 sprite).1 := rfl
@[simp] theorem drawAt_key (x0 y0 : Nat) (sprite : List Byte) (s : State) : (drawAt x0 y0 sprite s).key = s.key := rfl
@[simp] theorem drawAt_run (x0 y0 : Nat) (sprite : List Byte) (s : State) : (drawAt x0 y0 sprite s).run = s.run := rfl
@[simp] theorem drawAt_waitReg (x0 y0 : Nat) (sprite : List Byte) (s : State) : (drawAt x0 y0 sprite s).waitReg = s.waitReg := rfl
@[simp] theorem drawAt_fault (x0 y0 : Nat) (sprite : List Byte) (s : State) : (drawAt x0 y0 sprite s).fault = s.fault := rfl
@[simp] theorem drawAt_mem (x0 y0 : Nat) (sprite : List Byte) (s : State) : (drawAt x0 y0 sprite s).mem = s.mem := rfl
@[simp] theorem drawAt_boot (x0 y0 : Nat) (sprite : List Byte) (s : State) : (drawAt x0 y0 sprite s).boot = s.boot := rfl
@[simp] theorem drawAt_cfg (x0 y0 : Nat) (sprite : List Byte) (s : State) : (drawAt x0 y0 sprite s).cfg = s.cfg := rfl
@[simp] theorem drawAt_pending (x0 y0 : Nat) (sprite : List Byte) (s : State) : (drawAt x0 y0 sprite s).pending = s.pending := rfl
@[simp] theorem drawAt_rand (x0 y0 : Nat) (sprite : List Byte) (s : State) : (drawAt x0 y0 sprite s).rand = s.rand := rfl
@[simp] theorem drawAt_draws (x0 y0 : Nat) (sprite : List Byte) (s : State) : (drawAt x0 y0 sprite s).draws = s.draws := rfl

/-! ## `completeWait` -/

@[simp] theorem completeWait_v (k : Key) (s : State) : (completeWait k s).v = s.v.set s.waitReg.val (keyByte k) s.waitReg.isLt := rfl
@[simp] theorem completeWait_index (k : Key) (s : State) : (completeWait k s).index = s.index := rfl
@[simp] theorem completeWait_pc (k : Key) (s : State) : (completeWait k s).pc = s.pc + 2 := rfl
@[simp] theorem completeWait_sp (k : Key) (s : State) : (completeWait k s).sp = s.sp := rfl
@[simp] theorem completeWait_stack (k : Key) (s : State) : (completeWait k s).stack = s.stack := rfl
@[simp] theorem completeWait_dt (k : Key) (s : State) : (completeWait k s).dt = s.dt := rfl
@[simp] theorem completeWait_st (k : Key) (s : State) : (completeWait k s).st = s.st := rfl
@[simp] theorem completeWait_disp (k : Key) (s : State) : (completeWait k s).disp = s.disp := rfl
@[simp] theorem completeWait_key (k : Key) (s : State) : (completeWait k s).key = s.key := rfl
@[simp] theorem completeWait_run (k : Key) (s : State) : (completeWait k s).run = .running := rfl
@[simp] theorem completeWait_waitReg (k : Key) (s : State) : (completeWait k s).waitReg = s.waitReg := rfl
@[simp] theorem completeWait_fault (k : Key) (s : State) : (completeWait k s).fault = s.fault := rfl
@[simp] theorem completeWait_mem (k : Key) (s : State) : (completeWait k s).mem = s.mem := rfl
@[simp] theorem completeWait_boot (k : Key) (s : State) : (completeWait k s).boot = s.boot := rfl
@[simp] theorem completeWait_cfg (k : Key) (s : State) : (completeWait k s).cfg = s.cfg := rfl
@[simp] theorem completeWait_pending (k : Key) (s : State) : (completeWait k s).pending = s.pending := rfl
@[simp] theorem completeWait_rand (k : Key) (s : State) : (completeWait k s).rand = s.rand := rfl
@[simp] theorem completeWait_draws (k : Key) (s : State) : (completeWait k s).draws = s.draws := rfl

/-! ## `loadFrom` -/

@[simp] theorem loadFrom_index (bs : List Byte) : ∀ (k : Nat) (s : State), (loadFrom k bs s).index = s.index := by
  induction bs with
  | nil => intros; rfl
  | cons b bs ih => intros; simp [loadFrom, ih]
@[simp] theorem loadFrom_pc (bs : List Byte) : ∀ (k : Nat) (s : State), (loadFrom k bs s).pc = s.pc := by
  induction bs with
  | nil => intros; rfl
  | cons b bs ih => intros; simp [loadFrom, ih]
@[simp] theorem loadFrom_sp (bs : List Byte) : ∀ (k : Nat) (s : State), (loadFrom k bs s).sp = s.sp := by
  induction bs with
  | nil => intros; rfl
  | cons b bs ih => intros; simp [loadFrom, ih]
@[simp] theorem loadFrom_stack (bs : List Byte) : ∀ (k : Nat) (s : State), (loadFrom k bs s).stack = s.stack := by
  induction bs with
  | nil => intros; rfl
  | cons b bs ih => intros; simp [loadFrom, ih]
@[simp] theorem loadFrom_dt (bs : List Byte) : ∀ (k : Nat) (s : State), (loadFrom k bs s).dt = s.dt := by
  induction bs with
  | nil => intros; rfl
  | cons b bs ih => intros; simp [loadFrom, ih]
@[simp] theorem loadFrom_st (bs : List Byte) : ∀ (k : Nat) (s : State), (loadFrom k bs s).st = s.st := by
  induction bs with
  | nil => intros; rfl
  | cons b bs ih => intros; simp [loadFrom, ih]
@[simp] theorem loadFrom_disp (bs : List Byte) : ∀ (k : Nat) (s : State), (loadFrom k bs s).disp = s.disp := by
  induction bs with
  | nil => intros; rfl
  | cons b bs ih => intros; simp [loadFrom, ih]
@[simp] theorem loadFrom_key (bs : List Byte) : ∀ (k : Nat) (s : State), (loadFrom k bs s).key = s.key := by
  induction bs with
  | nil => intros; rfl
  | cons b bs ih => intros; simp [loadFrom, ih]
@[simp] theorem loadFrom_run (bs : List Byte) : ∀ (k : Nat) (s : State), (loadFrom k bs s).run = s.run := by
  induction bs with
  | nil => intros; rfl
  | cons b bs ih => intros; simp [loadFrom, ih]
@[simp] theorem loadFrom_waitReg (bs : List Byte) : ∀ (k : Nat) (s : State), (loadFrom k bs s).waitReg = s.waitReg := by
  induction bs with
  | nil => intros; rfl
  | cons b bs ih => intros; simp [loadFrom, ih]
@[simp] theorem loadFrom_fault (bs : List Byte) : ∀ (k : Nat) (s : State), (loadFrom k bs s).fault = s.fault := by
  induction bs with
  | nil => intros; rfl
  | cons b bs ih => intros; simp [loadFrom, ih]
@[simp] theorem loadFrom_mem (bs : List Byte) : ∀ (k : Nat) (s : State), (loadFrom k bs s).mem = s.mem := by
  induction bs with
  | nil => intros; rfl
  | cons b bs ih => intros; simp [loadFrom, ih]
@[simp] theorem loadFrom_boot (bs : List Byte) : ∀ (k : Nat) (s : State), (loadFrom k bs s).boot = s.boot := by
  induction bs with
  | nil => intros; rfl
  | cons b bs ih => intros; simp [loadFrom, ih]
@[simp] theorem loadFrom_cfg (bs : List Byte) : ∀ (k : Nat) (s : State), (loadFrom k bs s).cfg = s.cfg := by
  induction bs with
  | nil => intros; rfl
  | cons b bs ih => intros; simp [loadFrom, ih]
@[simp] theorem loadFrom_pending (bs : List Byte) : ∀ (k : Nat) (s : State), (loadFrom k bs s).pending = s.pending := by
  induction bs with
  | nil => intros; rfl
  | cons b bs ih => intros; simp [loadFrom, ih]
@[simp] theorem loadFrom_rand (bs : List Byte) : ∀ (k : Nat) (s : State), (loadFrom k bs s).rand = s.rand := by
  induction bs with
  | nil => intros; rfl
  | cons b bs ih => intros; simp [loadFrom, ih]
@[simp] theorem loadFrom_draws (bs : List Byte) : ∀ (k : Nat) (s : State), (loadFrom k bs s).draws = s.draws := by
  induction bs with
  | nil => intros; rfl
  | cons b bs ih => intros; simp [loadFrom, ih]

end Sys2Proof.Machine
end

