-- ==== Sys2Proof/Laws/Ops.lean ====
section
/-! SUPPORT. One lemma per shared operation that says everything it can do: the address checks, the digits, the stack,
the flag writes, the register blocks, the fetch and the timers. -/

namespace Sys2Proof.Machine

/-! ## Address checks (20_memory.md R64, R65) -/

theorem byteAddr_lt (a : Nat) : byteAddr a < memSize := Nat.mod_lt _ (by decide)

theorem byteAddr_of_le {a : Nat} (h : a ≤ 0xFFF) : byteAddr a = a := Nat.mod_eq_of_lt (by unfold memSize; omega)

theorem checkRange_ok {cfg : Config} {a : Nat} (h : inRange cfg a) : checkRange cfg a = .ok (byteAddr a) := by
  unfold checkRange
  split
  · next h1 => rw [byteAddr_of_le h1]
  · next h1 =>
    rcases h with h | h
    · exact absurd h h1
    · rw [h]; rfl

theorem checkRange_error {cfg : Config} {a : Nat} (h : ¬ inRange cfg a) :
    checkRange cfg a = .error .addressOutOfRange := by
  unfold inRange at h
  rw [not_or] at h
  unfold checkRange
  rw [if_neg h.1]
  cases hp : cfg.addrPolicy
  · rfl
  · exact absurd hp h.2

theorem checkReserved_ok {cfg : Config} {a : Nat} (h : mayWrite cfg a) :
    checkReserved cfg (byteAddr a) = .ok (byteAddr a) := by
  unfold checkReserved reservedTop
  split
  · next h1 =>
    rcases h with h | h
    · omega
    · rw [h]
  · rfl

theorem checkReserved_error {cfg : Config} {a : Nat} (h : ¬ mayWrite cfg a) :
    checkReserved cfg (byteAddr a) = .error .reservedWrite := by
  unfold mayWrite at h
  rw [not_or] at h
  unfold checkReserved reservedTop
  rw [if_pos (by omega)]
  cases hp : cfg.reservedWritePolicy
  · rfl
  · exact absurd hp h.2

/-- An address that passes the checks is the byte it names. -/
theorem checkAddr_ok {cfg : Config} {acc : Access} {a : Nat} (h : allowed cfg acc a) :
    checkAddr cfg acc a = .ok (byteAddr a) := by
  unfold checkAddr
  rw [checkRange_ok h.1]
  cases acc
  · rfl
  · exact checkReserved_ok (h.2 rfl)

/-- An address that does not pass raises its fault. -/
theorem checkAddr_error {cfg : Config} {acc : Access} {a : Nat} (h : ¬ allowed cfg acc a) :
    checkAddr cfg acc a = .error (addrFault cfg a) := by
  unfold checkAddr
  by_cases hr : inRange cfg a
  · have hk : addrFault cfg a = .reservedWrite := by
      unfold addrFault
      rw [if_neg]
      rintro ⟨h1, h2⟩
      rcases hr with h3 | h3
      · omega
      · rw [h2] at h3; cases h3
    rw [checkRange_ok hr, hk]
    cases acc
    · exact absurd ⟨hr, fun h => by cases h⟩ h
    · exact checkReserved_error fun hw => h ⟨hr, fun _ => hw⟩
  · have hk : addrFault cfg a = .addressOutOfRange := by
      unfold inRange at hr
      rw [not_or] at hr
      unfold addrFault
      rw [if_pos]
      refine ⟨by omega, ?_⟩
      cases hp : cfg.addrPolicy
      · rfl
      · exact absurd hp hr.2
    rw [checkRange_error hr, hk]

/-- A block whose addresses all pass. -/
theorem checkBlock_ok {cfg : Config} {acc : Access} {n base : Nat} (h : ∀ k < n, allowed cfg acc (base + k)) :
    checkBlock cfg acc base n = .ok ((List.range n).map fun k => byteAddr (base + k)) := by
  induction n generalizing base with
  | zero => rfl
  | succ n ih =>
    have h0 := h 0 (by omega)
    have hs : ∀ k < n, allowed cfg acc (base + 1 + k) := fun k hk => by
      have := h (k + 1) (by omega)
      rwa [show base + (k + 1) = base + 1 + k by omega] at this
    rw [checkBlock, checkAddr_ok (by simpa using h0), ih hs, List.range_succ_eq_map]
    simp only [List.map_cons, List.map_map, Nat.add_zero, Except.ok.injEq, List.cons.injEq, true_and]
    refine List.map_congr_left fun k _ => ?_
    rw [Function.comp_apply, show base + 1 + k = base + (k + 1) by omega]

/-- A block of which some address fails: the lowest one decides. -/
theorem checkBlock_error {cfg : Config} {acc : Access} {n base k : Nat} (hk : k < n)
    (hlow : ∀ j < k, allowed cfg acc (base + j)) (hf : ¬ allowed cfg acc (base + k)) :
    checkBlock cfg acc base n = .error (addrFault cfg (base + k)) := by
  induction n generalizing base k with
  | zero => omega
  | succ n ih =>
    cases k with
    | zero => rw [checkBlock, checkAddr_error (by simpa using hf)]; rfl
    | succ k =>
      have h0 := hlow 0 (by omega)
      have hs : ∀ j < k, allowed cfg acc (base + 1 + j) := fun j hj => by
        have := hlow (j + 1) (by omega)
        rwa [show base + (j + 1) = base + 1 + j by omega] at this
      have he : base + (k + 1) = base + 1 + k := by omega
      rw [checkBlock, checkAddr_ok (by simpa using h0), ih (k := k) (by omega) hs (by rwa [← he]), he]

/-- Either all of a block's addresses pass, or a lowest one fails. -/
theorem block_cases (cfg : Config) (acc : Access) (base n : Nat) :
    (∀ k < n, allowed cfg acc (base + k)) ∨
      ∃ k < n, (∀ j < k, allowed cfg acc (base + j)) ∧ ¬ allowed cfg acc (base + k) := by
  by_cases h : ∀ k < n, allowed cfg acc (base + k)
  · exact Or.inl h
  · right
    have hex : ∃ k, k < n ∧ ¬ allowed cfg acc (base + k) := by
      push Not at h
      exact h
    classical
    refine ⟨Nat.find hex, (Nat.find_spec hex).1, fun j hj => ?_, (Nat.find_spec hex).2⟩
    have := Nat.find_min hex hj
    by_contra hc
    exact this ⟨by have := (Nat.find_spec hex).1; omega, hc⟩

/-- The addresses of a data block that passes. -/
theorem dataBlock_ok {s : State} {acc : Access} {n : Nat} (h : blockAllowed s acc n) :
    dataBlock s acc n = .ok ((List.range n).map (blockAddr s)) :=
  checkBlock_ok h

/-- The fault of a data block of which some address fails. -/
theorem dataBlock_error {s : State} {acc : Access} {n k : Nat} (hk : k < n)
    (hlow : ∀ j < k, allowed s.cfg acc (s.index.toNat + j)) (hf : ¬ allowed s.cfg acc (s.index.toNat + k)) :
    dataBlock s acc n = .error (addrFault s.cfg (s.index.toNat + k)) :=
  checkBlock_error hk hlow hf

/-- What a data block's checks can answer. -/
theorem dataBlock_cases (s : State) (acc : Access) (n : Nat) :
    (blockAllowed s acc n ∧ dataBlock s acc n = .ok ((List.range n).map (blockAddr s))) ∨
      ∃ k < n, (∀ j < k, allowed s.cfg acc (s.index.toNat + j)) ∧ ¬ allowed s.cfg acc (s.index.toNat + k) ∧
        dataBlock s acc n = .error (addrFault s.cfg (s.index.toNat + k)) := by
  rcases block_cases s.cfg acc s.index.toNat n with h | ⟨k, hk, hlow, hf⟩
  · exact Or.inl ⟨h, dataBlock_ok h⟩
  · exact Or.inr ⟨k, hk, hlow, hf, dataBlock_error hk hlow hf⟩

theorem blockAddr_lt (s : State) (k : Nat) : blockAddr s k < memSize := byteAddr_lt _

/-- The bytes of a block of at most 4096 are distinct. -/
theorem blockAddr_inj {s : State} {j k : Nat} (hj : j < memSize) (hk : k < memSize)
    (h : blockAddr s j = blockAddr s k) : j = k := by
  unfold blockAddr byteAddr memSize at *
  omega

theorem blockAddrs_nodup (s : State) {n : Nat} (hn : n ≤ memSize) : ((List.range n).map (blockAddr s)).Nodup := by
  rw [List.nodup_map_iff_inj_on List.nodup_range]
  intro j hj k hk h
  rw [List.mem_range] at hj hk
  exact blockAddr_inj (by omega) (by omega) h

/-- Byte `k` of a block of at most 16 stored from I on reads as what was stored there. -/
theorem read_storeBlock {s : State} (hwf : Memory.wf s.mem = true) {n : Nat} (hn : n ≤ 16) {bs : List Byte}
    (hl : bs.length = n) {k : Nat} (hk : k < n) :
    Memory.read (Memory.writeList s.mem ((List.range n).map (blockAddr s)) bs) (blockAddr s k) = bs[k]'(by omega) := by
  have h := Memory.read_writeList_mem (as := (List.range n).map (blockAddr s)) (bs := bs) hwf ?_
    (blockAddrs_nodup s (by unfold memSize; omega)) (by simp [hl]) k (by simpa using hk)
  · simpa using h
  · intro a ha
    simp only [List.mem_map, List.mem_range] at ha
    obtain ⟨j, _, rfl⟩ := ha
    exact blockAddr_lt s j

/-- A byte outside a stored block reads as before. -/
theorem read_storeBlock_other {s : State} {n : Nat} {bs : List Byte} {a : Nat} (h : ∀ k < n, a ≠ blockAddr s k) :
    Memory.read (Memory.writeList s.mem ((List.range n).map (blockAddr s)) bs) a = Memory.read s.mem a := by
  apply Memory.read_writeList_other
  simp only [List.mem_map, List.mem_range, not_exists, not_and]
  intro k hk he
  exact h k hk he.symm

/-! ## Digits (44_input_timers.md R200, 42_index_memory.md R163) -/

theorem digitOf_small {p : DigitPolicy} {k : FaultKind} {b : Byte} (h : b.toNat ≤ 0xF) :
    digitOf p k b = .ok (lowNibble b) := by
  unfold digitOf; rw [if_pos h]

theorem digitOf_fault {k : FaultKind} {b : Byte} (h : b.toNat > 0xF) : digitOf .fault k b = .error k := by
  unfold digitOf; rw [if_neg (by omega)]

theorem digitOf_lowNibble {k : FaultKind} {b : Byte} : digitOf .lowNibble k b = .ok (lowNibble b) := by
  unfold digitOf; split <;> rfl

theorem lowNibble_val (b : Byte) : (lowNibble b).val = b.toNat % 16 := rfl

/-! ## The call stack (10_state.md R29) -/

theorem pushReturn_full {a : Word} {s : State} (h : s.sp.val = 16) : pushReturn a s = .error .stackOverflow := by
  unfold pushReturn; rw [dif_pos h]

theorem pushReturn_ok {a : Word} {s : State} (h : s.sp.val < 16) : pushReturn a s = .ok { s with
    stack := s.stack.set s.sp.val a h, sp := ⟨s.sp.val + 1, by omega⟩ } := by
  unfold pushReturn; rw [dif_neg (by omega)]

theorem popReturn_empty {s : State} (h : s.sp.val = 0) : popReturn s = .error .stackUnderflow := by
  unfold popReturn; rw [dif_pos h]

theorem popReturn_ok {s : State} (h : s.sp.val ≠ 0) : popReturn s = .ok (s.stack[s.sp.val - 1]'(by omega),
    { s with sp := ⟨s.sp.val - 1, by omega⟩ }) := by
  unfold popReturn; rw [dif_neg h]

/-! ## Registers -/

theorem getElem_setV (x r : Reg) (b : Byte) (s : State) : (setV x b s).v[r] = if x = r then b else s.v[r] := by
  simp only [setV, Fin.getElem_fin, Vector.getElem_set, Fin.ext_iff]

@[simp] theorem getElem_setV_same (x : Reg) (b : Byte) (s : State) : (setV x b s).v[x] = b := by
  rw [getElem_setV, if_pos rfl]

theorem getElem_setV_ne {x r : Reg} (h : r ≠ x) (b : Byte) (s : State) : (setV x b s).v[r] = s.v[r] := by
  rw [getElem_setV, if_neg (Ne.symm h)]

/-- The flagged write with the result going elsewhere than VF: both values hold, in either order (R131). -/
theorem writeFlagged_ne {x : Reg} (h : x ≠ VF) (r : Byte) (f : Bool) (s : State) :
    (writeFlagged x r f s).v[x] = r ∧ (writeFlagged x r f s).v[VF] = flagByte f := by
  unfold writeFlagged
  split
  · exact ⟨getElem_setV_same .., by rw [getElem_setV_ne (Ne.symm h), getElem_setV_same]⟩
  · exact ⟨by rw [getElem_setV_ne h, getElem_setV_same], getElem_setV_same ..⟩

/-- The flagged write with X = F: the last write wins (R131). -/
theorem writeFlagged_VF (r : Byte) (f : Bool) (s : State) : (writeFlagged VF r f s).v[VF] =
    match s.cfg.flagOrder with
    | .destLast => r
    | .flagLast => flagByte f := by
  unfold writeFlagged
  split <;> simp_all

/-- The flagged write leaves every other register alone. -/
theorem writeFlagged_other {x q : Reg} (hx : q ≠ x) (hf : q ≠ VF) (r : Byte) (f : Bool) (s : State) :
    (writeFlagged x r f s).v[q] = s.v[q] := by
  unfold writeFlagged
  split
  · rw [getElem_setV_ne hx, getElem_setV_ne hf]
  · rw [getElem_setV_ne hf, getElem_setV_ne hx]

/-- The flagged write changes nothing but the registers. -/
theorem writeFlagged_eq (x : Reg) (r : Byte) (f : Bool) (s : State) :
    writeFlagged x r f s = { s with v := (writeFlagged x r f s).v } := by
  unfold writeFlagged; split <;> rfl

/-- A block load changes nothing but the registers. -/
theorem loadFrom_eq (bs : List Byte) (k : Nat) (s : State) : loadFrom k bs s = { s with v := (loadFrom k bs s).v } := by
  induction bs generalizing k s with
  | nil => rfl
  | cons b bs ih => simp only [loadFrom]; rw [ih]; rfl

/-- Register `r` after a block load from V[k] on. -/
theorem getElem_loadFrom (bs : List Byte) (k : Nat) (s : State) (hb : k + bs.length ≤ 16) (r : Reg) :
    (loadFrom k bs s).v[r] = if h : k ≤ r.val ∧ r.val < k + bs.length then bs[r.val - k]'(by omega) else s.v[r] := by
  induction bs generalizing k s with
  | nil =>
    have : ¬ (k ≤ r.val ∧ r.val < k + ([] : List Byte).length) := by simp
    rw [dif_neg this]; rfl
  | cons b bs ih =>
    rw [List.length_cons] at hb
    simp only [loadFrom]
    rw [ih (k + 1) _ (by omega), getElem_setV]
    have hk : (Fin.ofNat 16 k).val = k := Nat.mod_eq_of_lt (by omega)
    by_cases h1 : k = r.val
    · have hr : Fin.ofNat 16 k = r := Fin.ext (by rw [hk, h1])
      have h2 : ¬ (k + 1 ≤ r.val ∧ r.val < k + 1 + bs.length) := by omega
      have h3 : k ≤ r.val ∧ r.val < k + (b :: bs).length := by rw [List.length_cons]; omega
      rw [dif_neg h2, if_pos hr, dif_pos h3]
      simp [h1]
    · have hr : Fin.ofNat 16 k ≠ r := fun h => h1 (by rw [← hk, h])
      by_cases h2 : k + 1 ≤ r.val ∧ r.val < k + 1 + bs.length
      · have h3 : k ≤ r.val ∧ r.val < k + (b :: bs).length := by rw [List.length_cons]; omega
        have h4 : r.val - k = (r.val - (k + 1)) + 1 := by omega
        rw [dif_pos h2, dif_pos h3]
        simp [h4]
      · have h3 : ¬ (k ≤ r.val ∧ r.val < k + (b :: bs).length) := by rw [List.length_cons]; omega
        rw [dif_neg h2, dif_neg h3, if_neg hr]

@[simp] theorem firstRegs_length (s : State) {n : Nat} (h : n ≤ 16) : (firstRegs s n).length = n := by
  simp [firstRegs, h]

/-- Byte `k` of the block FX55 stores is V[k]. -/
theorem getElem_firstRegs (s : State) {n k : Nat} (hn : n ≤ 16) (hk : k < n) :
    (firstRegs s n)[k]'(by rw [firstRegs_length s hn]; exact hk) = s.v[k] := by
  simp [firstRegs]

/-! ## Timers (44_input_timers.md R210) -/

/-- A timer tick takes one off, and never goes below 0. -/
theorem countDown_toNat (t : Byte) : (countDown t).toNat = t.toNat - 1 := by
  unfold countDown
  split
  · next h => rw [BitVec.toNat_sub]; have := t.isLt; simp; omega
  · omega

/-! ## The fetch (20_memory.md R63) -/

/-- The word a fetch that passes its checks gives. -/
theorem fetch_ok {s : State} (ha : s.cfg.alignPolicy = .allow ∨ s.pc.toNat % 2 = 0)
    (hr : s.cfg.addrPolicy = .mask12 ∨ s.pc.toNat ≤ 0xFFE) :
    fetch s = .ok (wordOfBytes (Memory.read s.mem (byteAddr s.pc.toNat)) (Memory.read s.mem (byteAddr (s.pc.toNat + 1)))) := by
  unfold fetch
  rw [if_neg, if_neg]
  · rfl
  · rintro ⟨h1, h2⟩
    rcases hr with h | h
    · rw [h1] at h; cases h
    · omega
  · rintro ⟨h1, h2⟩
    rcases ha with h | h
    · rw [h1] at h; cases h
    · omega

theorem fetch_misaligned {s : State} (ha : s.cfg.alignPolicy = .fault) (ho : s.pc.toNat % 2 = 1) :
    fetch s = .error .pcMisaligned := by
  unfold fetch; rw [if_pos ⟨ha, ho⟩]

theorem fetch_outOfRange {s : State} (ha : s.cfg.alignPolicy = .allow ∨ s.pc.toNat % 2 = 0)
    (hr : s.cfg.addrPolicy = .fault) (hp : s.pc.toNat > 0xFFE) : fetch s = .error .addressOutOfRange := by
  unfold fetch
  rw [if_neg, if_pos ⟨hr, hp⟩]
  rintro ⟨h1, h2⟩
  rcases ha with h | h
  · rw [h1] at h; cases h
  · omega

/-- The fetch reads only `pc`, memory and the parameters. -/
theorem fetch_congr {s t : State} (hp : t.pc = s.pc) (hm : t.mem = s.mem) (hc : t.cfg = s.cfg) : fetch t = fetch s := by
  unfold fetch; rw [hp, hm, hc]

end Sys2Proof.Machine
end

