-- ==== Sys2Proof/Laws/PerInstr.lean ====
section
/-! SUPPORT. Statements made of every instruction, one lemma per constructor: the word of an instruction matches the row of
the opcode table (30_encoding.md R85) that the instruction stands in. -/

namespace Sys2Proof.Laws.RowMatch

/-- The encoded word passes its row's test `(w & mask) = match` (R85). -/
def Statement (i : Instr) : Prop := (opcodeRow i).matchesWord (encode i) = true

/-- A word of the format NNN matches a row that fixes its family nibble. -/
theorem of_formatNNN {op : Nat} (hop : op < 16) (nnn : Addr12) {v : Word} (hv : v.toNat = op * 0x1000) :
    (OpcodeRow.mk v 0xF000).matchesWord (formatNNN op nnn) = true := by
  have := nnn.isLt
  rw [matchesWord_iff, and_F000, formatNNN_toNat hop, hv]
  omega

/-- A word of the format XNN matches a row that fixes its family nibble. -/
theorem of_formatXNN {op : Nat} (hop : op < 16) (x : Reg) (nn : Byte) {v : Word} (hv : v.toNat = op * 0x1000) :
    (OpcodeRow.mk v 0xF000).matchesWord (formatXNN op x nn) = true := by
  have := nn.isLt
  rw [matchesWord_iff, and_F000, formatXNN_toNat hop, hv]
  omega

/-- A word of the format XYN matches a row that fixes its family nibble. -/
theorem of_formatXYN {op : Nat} (hop : op < 16) (x y : Reg) (n : Nibble) {v : Word} (hv : v.toNat = op * 0x1000) :
    (OpcodeRow.mk v 0xF000).matchesWord (formatXYN op x y n) = true := by
  have := n.isLt
  rw [matchesWord_iff, and_F000, formatXYN_toNat hop, hv]
  omega

/-- A word of the format XY matches a row that fixes its family and low nibbles. -/
theorem of_formatXY {op : Nat} (hop : op < 16) (x y : Reg) (n : Nibble) {v : Word}
    (hv : v.toNat = op * 0x1000 + n.toNat) :
    (OpcodeRow.mk v 0xF00F).matchesWord (formatXYN op x y n) = true := by
  have := n.isLt
  rw [matchesWord_iff, and_F00F, formatXYN_toNat hop, hv]
  omega

/-- A word of the format X matches a row that fixes its family nibble and low byte. -/
theorem of_formatX {op : Nat} (hop : op < 16) (x : Reg) (nn : Byte) {v : Word}
    (hv : v.toNat = op * 0x1000 + nn.toNat) :
    (OpcodeRow.mk v 0xF0FF).matchesWord (formatXNN op x nn) = true := by
  have := nn.isLt
  rw [matchesWord_iff, and_F0FF, formatXNN_toNat hop, hv]
  omega

theorem sys (nnn : Addr12) : Statement (.sys nnn) := of_formatNNN (by decide) nnn rfl

theorem cls : Statement .cls := by unfold Statement; decide

theorem ret : Statement .ret := by unfold Statement; decide

theorem jp (nnn : Addr12) : Statement (.jp nnn) := of_formatNNN (by decide) nnn rfl

theorem call (nnn : Addr12) : Statement (.call nnn) := of_formatNNN (by decide) nnn rfl

theorem seImm (x : Reg) (nn : Byte) : Statement (.seImm x nn) := of_formatXNN (by decide) x nn rfl

theorem sneImm (x : Reg) (nn : Byte) : Statement (.sneImm x nn) := of_formatXNN (by decide) x nn rfl

theorem seReg (x y : Reg) : Statement (.seReg x y) := of_formatXY (by decide) x y _ rfl

theorem ldImm (x : Reg) (nn : Byte) : Statement (.ldImm x nn) := of_formatXNN (by decide) x nn rfl

theorem addImm (x : Reg) (nn : Byte) : Statement (.addImm x nn) := of_formatXNN (by decide) x nn rfl

theorem ldReg (x y : Reg) : Statement (.ldReg x y) := of_formatXY (by decide) x y _ rfl

theorem orReg (x y : Reg) : Statement (.orReg x y) := of_formatXY (by decide) x y _ rfl

theorem andReg (x y : Reg) : Statement (.andReg x y) := of_formatXY (by decide) x y _ rfl

theorem xorReg (x y : Reg) : Statement (.xorReg x y) := of_formatXY (by decide) x y _ rfl

theorem addReg (x y : Reg) : Statement (.addReg x y) := of_formatXY (by decide) x y _ rfl

theorem subReg (x y : Reg) : Statement (.subReg x y) := of_formatXY (by decide) x y _ rfl

theorem shr (x y : Reg) : Statement (.shr x y) := of_formatXY (by decide) x y _ rfl

theorem subnReg (x y : Reg) : Statement (.subnReg x y) := of_formatXY (by decide) x y _ rfl

theorem shl (x y : Reg) : Statement (.shl x y) := of_formatXY (by decide) x y _ rfl

theorem sneReg (x y : Reg) : Statement (.sneReg x y) := of_formatXY (by decide) x y _ rfl

theorem ldI (nnn : Addr12) : Statement (.ldI nnn) := of_formatNNN (by decide) nnn rfl

theorem jpV0 (nnn : Addr12) : Statement (.jpV0 nnn) := of_formatNNN (by decide) nnn rfl

theorem rnd (x : Reg) (nn : Byte) : Statement (.rnd x nn) := of_formatXNN (by decide) x nn rfl

theorem drw (x y : Reg) (n : Nibble) : Statement (.drw x y n) := of_formatXYN (by decide) x y n rfl

theorem skp (x : Reg) : Statement (.skp x) := of_formatX (by decide) x _ rfl

theorem sknp (x : Reg) : Statement (.sknp x) := of_formatX (by decide) x _ rfl

theorem ldVxDt (x : Reg) : Statement (.ldVxDt x) := of_formatX (by decide) x _ rfl

theorem ldVxK (x : Reg) : Statement (.ldVxK x) := of_formatX (by decide) x _ rfl

theorem ldDtVx (x : Reg) : Statement (.ldDtVx x) := of_formatX (by decide) x _ rfl

theorem ldStVx (x : Reg) : Statement (.ldStVx x) := of_formatX (by decide) x _ rfl

theorem addI (x : Reg) : Statement (.addI x) := of_formatX (by decide) x _ rfl

theorem ldF (x : Reg) : Statement (.ldF x) := of_formatX (by decide) x _ rfl

theorem ldB (x : Reg) : Statement (.ldB x) := of_formatX (by decide) x _ rfl

theorem storeRegs (x : Reg) : Statement (.storeRegs x) := of_formatX (by decide) x _ rfl

theorem loadRegs (x : Reg) : Statement (.loadRegs x) := of_formatX (by decide) x _ rfl

end Sys2Proof.Laws.RowMatch
end

