-- ==== Sys2Proof/Laws/Step.lean ====
section
/-! SUPPORT. What one instruction and one step can do, said once: an instruction always answers a next state, which is a
recorded fault or leaves the fault record alone; a step performs one of the host's transactions. -/

namespace Sys2Proof.Machine

@[simp] theorem raise_eq (k : FaultKind) (w : Option Word) (s : State) :
    raise k w s = .next (recordFault k w s) := rfl

/-! ## Stack operations touch only the stack -/

theorem pushReturn_cases {a : Word} {s : State} : (s.sp.val = 16 ∧ pushReturn a s = .error .stackOverflow) ∨
    ∃ h : s.sp.val < 16, pushReturn a s = .ok { s with
      stack := s.stack.set s.sp.val a h, sp := ⟨s.sp.val + 1, by omega⟩ } := by
  by_cases h : s.sp.val = 16
  · exact Or.inl ⟨h, pushReturn_full h⟩
  · have h' : s.sp.val < 16 := by omega
    exact Or.inr ⟨h', pushReturn_ok h'⟩

theorem popReturn_cases {s : State} : (s.sp.val = 0 ∧ popReturn s = .error .stackUnderflow) ∨
    ∃ _h : s.sp.val ≠ 0, popReturn s = .ok (s.stack[s.sp.val - 1]'(by omega),
      { s with sp := ⟨s.sp.val - 1, by omega⟩ }) := by
  by_cases h : s.sp.val = 0
  · exact Or.inl ⟨h, popReturn_empty h⟩
  · exact Or.inr ⟨h, popReturn_ok h⟩

/-! ## What one instruction can do -/

/-- Every instruction answers a next state: a recorded fault with nothing else changed, or one with the fault record,
the latch, the boot order, the parameters and the host's list as before. -/
theorem exec_cases (i : Instr) (s : State) :
    (∃ k, exec i s = .next (recordFault k (some (encode i)) s)) ∨
      ∃ t, exec i s = .next t ∧ t.fault = s.fault ∧ t.key = s.key ∧ t.boot = s.boot ∧ t.cfg = s.cfg ∧
        t.pending = s.pending := by
  cases i <;> simp only [exec]
  case sys nnn =>
    unfold execSys
    split
    · exact Or.inl ⟨_, rfl⟩
    · exact Or.inr ⟨_, rfl, by simp⟩
  case ret =>
    unfold execRet
    rcases popReturn_cases (s := s) with ⟨_, h⟩ | ⟨_, h⟩ <;> rw [h]
    · exact Or.inl ⟨_, rfl⟩
    · exact Or.inr ⟨_, rfl, by simp⟩
  case call nnn =>
    unfold execCall
    rcases pushReturn_cases (a := s.pc + 2) (s := s) with ⟨_, h⟩ | ⟨_, h⟩ <;> rw [h]
    · exact Or.inl ⟨_, rfl⟩
    · exact Or.inr ⟨_, rfl, by simp⟩
  case drw x y n =>
    unfold execDrw
    split
    · exact Or.inl ⟨_, rfl⟩
    · exact Or.inr ⟨_, rfl, by simp⟩
  case skp x =>
    unfold execSkp
    split
    · exact Or.inl ⟨_, rfl⟩
    · exact Or.inr ⟨_, rfl, by simp⟩
  case sknp x =>
    unfold execSknp
    split
    · exact Or.inl ⟨_, rfl⟩
    · exact Or.inr ⟨_, rfl, by simp⟩
  case ldF x =>
    unfold execLdF
    split
    · exact Or.inl ⟨_, rfl⟩
    · exact Or.inr ⟨_, rfl, by simp⟩
  case ldB x =>
    unfold execLdB
    split
    · exact Or.inl ⟨_, rfl⟩
    · exact Or.inr ⟨_, rfl, by simp⟩
  case storeRegs x =>
    unfold execStoreRegs
    split
    · exact Or.inl ⟨_, rfl⟩
    · exact Or.inr ⟨_, rfl, by simp⟩
  case loadRegs x =>
    unfold execLoadRegs
    split
    · exact Or.inl ⟨_, rfl⟩
    · exact Or.inr ⟨_, rfl, by simp⟩
  all_goals exact Or.inr ⟨_, rfl, by simp⟩

/-- The run state is written by FX0A only. -/
theorem exec_run {i : Instr} {s t : State} (h : exec i s = .next t) :
    (t.run = s.run) ∨ ∃ x, i = .ldVxK x ∧ t = { s with run := .awaitingKey, waitReg := x } := by
  cases i <;> simp only [exec] at h
  case ldVxK x => cases h; exact Or.inr ⟨x, rfl, rfl⟩
  case sys nnn => unfold execSys at h; split at h <;> cases h <;> exact Or.inl rfl
  case ret =>
    unfold execRet at h
    rcases popReturn_cases (s := s) with ⟨_, hp⟩ | ⟨_, hp⟩ <;> rw [hp] at h <;> cases h <;> exact Or.inl rfl
  case call nnn =>
    unfold execCall at h
    rcases pushReturn_cases (a := s.pc + 2) (s := s) with ⟨_, hp⟩ | ⟨_, hp⟩ <;> rw [hp] at h <;> cases h <;>
      exact Or.inl rfl
  case drw x y n => unfold execDrw at h; split at h <;> cases h <;> exact Or.inl (by simp)
  case skp x => unfold execSkp at h; split at h <;> cases h <;> exact Or.inl (by simp)
  case sknp x => unfold execSknp at h; split at h <;> cases h <;> exact Or.inl (by simp)
  case ldF x => unfold execLdF at h; split at h <;> cases h <;> exact Or.inl (by simp)
  case ldB x => unfold execLdB at h; split at h <;> cases h <;> exact Or.inl (by simp)
  case storeRegs x => unfold execStoreRegs at h; split at h <;> cases h <;> exact Or.inl (by simp)
  case loadRegs x => unfold execLoadRegs at h; split at h <;> cases h <;> exact Or.inl (by simp)
  all_goals (cases h; exact Or.inl (by simp))

/-- The memory after an instruction: unchanged, or bytes stored at a block of checked addresses. -/
theorem exec_mem {i : Instr} {s t : State} (h : exec i s = .next t) :
    t.mem = s.mem ∨ ∃ n bs, t.mem = Memory.writeList s.mem ((List.range n).map (blockAddr s)) bs := by
  cases i <;> simp only [exec] at h
  case ldB x =>
    unfold execLdB at h
    rcases dataBlock_cases s .write 3 with ⟨_, hb⟩ | ⟨_, _, _, _, hb⟩ <;> rw [hb] at h <;> cases h
    · exact Or.inr ⟨3, _, by simp; rfl⟩
    · exact Or.inl rfl
  case storeRegs x =>
    unfold execStoreRegs at h
    rcases dataBlock_cases s .write (x.val + 1) with ⟨_, hb⟩ | ⟨_, _, _, _, hb⟩ <;> rw [hb] at h <;> cases h
    · exact Or.inr ⟨x.val + 1, _, by simp; rfl⟩
    · exact Or.inl rfl
  case sys nnn => unfold execSys at h; split at h <;> cases h <;> exact Or.inl rfl
  case ret =>
    unfold execRet at h
    rcases popReturn_cases (s := s) with ⟨_, hp⟩ | ⟨_, hp⟩ <;> rw [hp] at h <;> cases h <;> exact Or.inl rfl
  case call nnn =>
    unfold execCall at h
    rcases pushReturn_cases (a := s.pc + 2) (s := s) with ⟨_, hp⟩ | ⟨_, hp⟩ <;> rw [hp] at h <;> cases h <;>
      exact Or.inl rfl
  case drw x y n => unfold execDrw at h; split at h <;> cases h <;> exact Or.inl (by simp)
  case skp x => unfold execSkp at h; split at h <;> cases h <;> exact Or.inl (by simp)
  case sknp x => unfold execSknp at h; split at h <;> cases h <;> exact Or.inl (by simp)
  case ldF x => unfold execLdF at h; split at h <;> cases h <;> exact Or.inl (by simp)
  case loadRegs x => unfold execLoadRegs at h; split at h <;> cases h <;> exact Or.inl (by simp)
  all_goals (cases h; exact Or.inl (by simp))

/-! ## What one step can do -/

/-- What a CPU tick can do. -/
theorem cpuTick_cases (s : State) :
    (¬ executing s ∧ cpuTick s = .next s) ∨
      (executing s ∧
        ((∃ k, fetch s = .error k ∧ cpuTick s = .next (recordFault k none s)) ∨
          (∃ w e, fetch s = .ok w ∧ decode w = .error e ∧
            cpuTick s = .next (recordFault .unsupportedOpcode (some w) s)) ∨
          ∃ w i, fetch s = .ok w ∧ decode w = .ok i ∧ cpuTick s = exec i s)) := by
  unfold cpuTick executing
  cases hb : s.boot <;> try exact Or.inl ⟨by simp, rfl⟩
  cases hf : s.fault with
  | some r => exact Or.inl ⟨by simp, rfl⟩
  | none =>
    cases hr : s.run with
    | awaitingKey => exact Or.inl ⟨by simp, rfl⟩
    | running =>
      refine Or.inr ⟨by simp, ?_⟩
      simp only [fetchDecodeExecute]
      cases hw : fetch s with
      | error k => exact Or.inl ⟨k, rfl, rfl⟩
      | ok w =>
        cases hd : decode w with
        | error e => exact Or.inr (Or.inl ⟨w, e, rfl, hd, by simp only [hd]; rfl⟩)
        | ok i => exact Or.inr (Or.inr ⟨w, i, rfl, hd, by simp only [hd]⟩)

/-- An executing core runs the instruction it fetches and decodes. -/
theorem cpuTick_exec {s : State} {w : Word} {i : Instr} (he : executing s) (hf : fetch s = .ok w)
    (hd : decode w = .ok i) : cpuTick s = exec i s := by
  obtain ⟨h1, h2, h3⟩ := he
  simp only [cpuTick, h1, h2, h3, fetchDecodeExecute, hf, hd]

@[simp] theorem taken_nil {s : State} (h : s.pending = []) : taken s = s := by
  unfold taken
  rw [h, List.tail_nil, ← h]

/-- A step whose next transaction is a CPU tick is that tick. -/
theorem step_cpuTick {s : State} {rest : List Transaction} (h : nextIsCpuTick s rest) :
    step s = cpuTick { s with pending := rest } := by
  rcases h with h | ⟨h, hr⟩
  · simp only [step, performNext, h, perform]
  · subst hr
    simp only [step, performNext, h]
    rw [← h]

/-- What a step can do when it answers a next state. -/
theorem step_cases {s t : State} (h : step s = .next t) :
    (cpuTick (taken s) = .next t) ∨ (t = timerTick (taken s)) ∨ (∃ k p, t = keyEvent k p (taken s)) ∨
      (s.boot = .afterReset ∧ t = loadFont (taken s)) ∨
      (s.boot = .fontLoaded ∧ ∃ bytes, t = (loadProgram bytes (taken s)).2) ∨ t = taken s := by
  unfold step performNext at h
  cases hp : s.pending with
  | nil =>
    rw [hp] at h
    rw [taken_nil hp]
    exact Or.inl h
  | cons tr rest =>
    have ht : taken s = { s with pending := rest } := by unfold taken; rw [hp, List.tail_cons]
    rw [hp] at h
    simp only at h
    rw [← ht] at h
    cases tr <;> simp only [perform] at h
    case cpuTick => exact Or.inl h
    case timerTick => cases h; exact Or.inr (Or.inl rfl)
    case keyEvent k p => cases h; exact Or.inr (Or.inr (Or.inl ⟨k, p, rfl⟩))
    case loadFont =>
      split at h
      · next hb => cases h; exact Or.inr (Or.inr (Or.inr (Or.inl ⟨hb, rfl⟩)))
      · cases h
    case loadProgram bytes =>
      split at h
      · next hb => cases h; exact Or.inr (Or.inr (Or.inr (Or.inr (Or.inl ⟨hb, bytes, rfl⟩))))
      · cases h
    all_goals (cases h; exact Or.inr (Or.inr (Or.inr (Or.inr (Or.inr rfl)))))

end Sys2Proof.Machine
end

