-- ==== Sys2Proof/Laws/Transactions.lean ====
section
/-! SUPPORT. What the timer tick, the key event and the loads can do, said once, and the steps that perform them. -/

namespace Sys2Proof.Machine

/-- A step of the interface's run. -/
theorem core_run_succ (k : Nat) {s u : State} (h : step s = .next u) : core.run (k + 1) s = core.run k u := by
  have h' : core.step s = .next u := h
  refine (Host.Core.run.eq_2 core s k).trans ?_
  rw [h']

/-! ## The timer tick (44_input_timers.md R210) -/

theorem step_timerTick {s : State} {rest : List Transaction} (h : s.pending = .timerTick :: rest) :
    step s = .next (timerTick { s with pending := rest }) := by
  simp only [step, performNext, h, perform]

theorem timerTick_idle {s : State} (h : s.boot ≠ .started ∨ s.fault ≠ none) : timerTick s = s := by
  unfold timerTick
  cases hb : s.boot <;> simp only
  cases hf : s.fault <;> simp_all

theorem timerTick_counts {s : State} (h : s.boot = .started) (hf : s.fault = none) :
    timerTick s = { s with dt := countDown s.dt, st := countDown s.st } := by
  unfold timerTick; rw [h, hf]

theorem timerTick_cases (s : State) :
    timerTick s = s ∨ timerTick s = { s with dt := countDown s.dt, st := countDown s.st } := by
  by_cases h : s.boot = .started ∧ s.fault = none
  · exact Or.inr (timerTick_counts h.1 h.2)
  · exact Or.inl (timerTick_idle (by tauto))

/-! ## The key event (44_input_timers.md R207) -/

theorem step_keyEvent {s : State} {k : Key} {p : Bool} {rest : List Transaction} (h : s.pending = .keyEvent k p :: rest) :
    step s = .next (keyEvent k p { s with pending := rest }) := by
  simp only [step, performNext, h, perform]

theorem keyEvent_latch {s : State} {k : Key} {p : Bool}
    (h : ¬ (s.fault = none ∧ s.run = .awaitingKey ∧ p = true ∧ s.key[k] = false)) :
    keyEvent k p s = { s with key := s.key.set k.val p k.isLt } := by
  unfold keyEvent
  simp only
  rw [if_neg]
  intro ⟨a, b, c⟩
  exact h ⟨a, b, by simpa using c⟩

theorem keyEvent_completes {s : State} {k : Key} {p : Bool}
    (h : s.fault = none ∧ s.run = .awaitingKey ∧ p = true ∧ s.key[k] = false) :
    keyEvent k p s = completeWait k { s with key := s.key.set k.val p k.isLt } := by
  unfold keyEvent
  simp only
  rw [if_pos]
  exact ⟨h.1, h.2.1, by simpa using h.2.2⟩

/-! ## The loads (70_reset_and_hazards.md R263 to R265) -/

theorem step_loadFont {s : State} {rest : List Transaction} (hp : s.pending = .loadFont :: rest)
    (hb : s.boot = .afterReset) : step s = .next (loadFont { s with pending := rest }) := by
  simp only [step, performNext, hp, perform, hb, if_true]

theorem step_loadProgram {s : State} {bytes : List Byte} {rest : List Transaction}
    (hp : s.pending = .loadProgram bytes :: rest) (hb : s.boot = .fontLoaded) :
    step s = .next (loadProgram bytes { s with pending := rest }).2 := by
  simp only [step, performNext, hp, perform, hb, if_true]

theorem loadProgram_tooLarge {bytes : List Byte} (s : State) (h : bytes.length > progMax) :
    loadProgram bytes s = (.loadTooLarge, { s with boot := .loadTooLarge }) := by
  unfold loadProgram; rw [if_pos h]

theorem loadProgram_ok {bytes : List Byte} (s : State) (h : bytes.length ≤ progMax) :
    loadProgram bytes s = (.ok, { s with mem := Memory.writeBlock s.mem progBase bytes, boot := .started }) := by
  unfold loadProgram; rw [if_neg (by omega)]

theorem rows_length {α : Type} {n : Nat} (l : List (Vector α n)) : (l.flatMap Vector.toList).length = n * l.length := by
  induction l with
  | nil => simp
  | cons a l ih => simp only [List.flatMap_cons, List.length_append, Vector.length_toList, ih, List.length_cons]; ring

/-- Element `x` of row `y` in rows laid one after the other. -/
theorem rows_getElem {α : Type} {n : Nat} (l : List (Vector α n)) (y x : Nat) (hy : y < l.length) (hx : x < n) :
    (l.flatMap Vector.toList)[y * n + x]? = some (l[y][x]) := by
  induction l generalizing y with
  | nil => simp at hy
  | cons a l ih =>
    rw [List.flatMap_cons]
    cases y with
    | zero => rw [List.getElem?_append_left (by simp; omega)]; simp [hx]
    | succ y =>
      rw [List.getElem?_append_right (by simp; nlinarith)]
      have he : (y + 1) * n + x - a.toList.length = y * n + x := by
        rw [Vector.length_toList, Nat.succ_mul]; omega
      rw [he]
      simpa using ih y (by simpa using hy)

@[simp] theorem fontBytes_length (cfg : Config) : (fontBytes cfg).length = 80 := by
  unfold fontBytes; rw [rows_length]; simp

end Sys2Proof.Machine
end

