-- ==== Sys2Proof/Tests/Slice0.lean ====
section
/-! SUPPORT. The model's own tests: ill-formed terms the check refuses, one written-out word per instruction, the spec's
vectors (95_test_vectors.md T-*) one step each, and a witness of the hypotheses of every statement. -/

namespace Sys2Proof.Tests

open Sys2Proof.Machine

/-! ## Helpers -/

/-- The next state of a step, if there is one. -/
def after (r : Result) : Option State :=
  match r with
  | .next s => some s
  | .fault _ => none
  | .refused _ => none

/-- What one CPU tick that fetches the word `w` leaves, seen through `f`. -/
def tick {α : Type} (w : Nat) (s : State) (f : State → α) : Option α :=
  (after (step (s.withFetchWord 16 w))).map f

/-- Put registers into a state. -/
def regs : List (Reg × Byte) → State → State
  | [], s => s
  | (r, b) :: l, s => regs l (setV r b s)

/-- Put bytes into memory. -/
def poke (a : Nat) (bs : List Byte) (s : State) : State := { s with mem := Memory.writeBlock s.mem a bs }

/-- Bytes of memory from `a` on. -/
def peek (a n : Nat) (s : State) : List Byte := (List.range n).map fun k => Memory.read s.mem (a + k)

/-- The pixels `(x, y)` of a list. -/
def pixels (l : List (Fin 64 × Fin 32)) (s : State) : List Bool := l.map fun p => Display.pixel s.disp p.1 p.2

/-- A state with other parameters. -/
def withCfg (f : Config → Config) (s : State) : State := { s with cfg := f s.cfg }

/-- The reset state, started. -/
def s0 : State := { State.reset with boot := .started }

/-- A fault record of the word `w` at 0x200. -/
def faultAt200 (k : FaultKind) (w : Word) : Option FaultRecord := some ⟨k, 0x200, some w⟩

/-! ## Well-formedness: 00E0 and 00EE are not SYS (30_encoding.md R85 row 1) -/

theorem test_sys_0E0_ill_formed : wellFormed (.sys 0x0E0) = false := by decide
theorem test_sys_0EE_ill_formed : wellFormed (.sys 0x0EE) = false := by decide
theorem test_sys_next_to_them_well_formed :
    ([0x000, 0x0DF, 0x0E1, 0x0ED, 0x0EF, 0xFFF].map fun nnn => wellFormed (.sys nnn)) =
      [true, true, true, true, true, true] := by decide

/-! ## Decoding: words written bit by bit from the encodings of R82 and R85 -/

theorem test_decode_family_0 : decode 0b0000_0001_0010_0011 = .ok (.sys 0x123) ∧
    decode 0b0000_0000_1110_0000 = .ok .cls ∧ decode 0b0000_0000_1110_1110 = .ok .ret := ⟨rfl, rfl, rfl⟩
theorem test_decode_jumps : decode 0b0001_0011_0000_0000 = .ok (.jp 0x300) ∧
    decode 0b0010_0100_0000_0000 = .ok (.call 0x400) ∧ decode 0b1011_0101_1111_0000 = .ok (.jpV0 0x5F0) ∧
    decode 0b1010_1111_1111_1111 = .ok (.ldI 0xFFF) := ⟨rfl, rfl, rfl, rfl⟩
theorem test_decode_skips : decode 0b0011_0011_0001_0010 = .ok (.seImm 3 0x12) ∧
    decode 0b0100_0011_0001_0011 = .ok (.sneImm 3 0x13) ∧ decode 0b0101_0001_0010_0000 = .ok (.seReg 1 2) ∧
    decode 0b1001_0001_0010_0000 = .ok (.sneReg 1 2) := ⟨rfl, rfl, rfl, rfl⟩
theorem test_decode_immediates : decode 0b0110_1010_0010_1011 = .ok (.ldImm 10 0x2B) ∧
    decode 0b0111_0001_0000_0001 = .ok (.addImm 1 0x01) ∧ decode 0b1100_0001_0000_1111 = .ok (.rnd 1 0x0F) :=
  ⟨rfl, rfl, rfl⟩
theorem test_decode_family_8 : decode 0b1000_0001_0101_0000 = .ok (.ldReg 1 5) ∧
    decode 0b1000_0001_0010_0001 = .ok (.orReg 1 2) ∧ decode 0b1000_0001_0010_0010 = .ok (.andReg 1 2) ∧
    decode 0b1000_0001_0010_0011 = .ok (.xorReg 1 2) ∧ decode 0b1000_0001_0010_0100 = .ok (.addReg 1 2) ∧
    decode 0b1000_0001_0010_0101 = .ok (.subReg 1 2) ∧ decode 0b1000_0011_1010_0110 = .ok (.shr 3 10) ∧
    decode 0b1000_0001_0010_0111 = .ok (.subnReg 1 2) ∧ decode 0b1000_0011_0000_1110 = .ok (.shl 3 0) :=
  ⟨rfl, rfl, rfl, rfl, rfl, rfl, rfl, rfl, rfl⟩
theorem test_decode_family_D_E : decode 0b1101_0001_0010_0101 = .ok (.drw 1 2 5) ∧
    decode 0b1110_0101_1001_1110 = .ok (.skp 5) ∧ decode 0b1110_0101_1010_0001 = .ok (.sknp 5) := ⟨rfl, rfl, rfl⟩
theorem test_decode_family_F : decode 0b1111_0011_0000_0111 = .ok (.ldVxDt 3) ∧
    decode 0b1111_0011_0000_1010 = .ok (.ldVxK 3) ∧ decode 0b1111_0001_0001_0101 = .ok (.ldDtVx 1) ∧
    decode 0b1111_0001_0001_1000 = .ok (.ldStVx 1) ∧ decode 0b1111_0100_0001_1110 = .ok (.addI 4) ∧
    decode 0b1111_0010_0010_1001 = .ok (.ldF 2) ∧ decode 0b1111_0111_0011_0011 = .ok (.ldB 7) ∧
    decode 0b1111_0010_0101_0101 = .ok (.storeRegs 2) ∧ decode 0b1111_0010_0110_0101 = .ok (.loadRegs 2) :=
  ⟨rfl, rfl, rfl, rfl, rfl, rfl, rfl, rfl, rfl⟩
/-- T-F4. -/
theorem test_decode_illegal : ([0x5121, 0x9121, 0x8008, 0x800F, 0x800D, 0xE000, 0xE1A2, 0xF000, 0xF0FF, 0xFFFF].map
    fun w => decodeTableWord 16 w) = List.replicate 10 none := by decide
theorem test_decodeTableWord : decodeTableWord 16 0xD125 = some (.drw 1 2 5) ∧
    decodeBytes [0xD1] = .error .truncated := ⟨rfl, rfl⟩

/-! ## Fetch and faults (T-F) -/

/-- T-F1, T-F2. -/
theorem test_fetch_faults :
    (after (step { s0 with pc := 0x0201 })).map State.fault = some (some ⟨.pcMisaligned, 0x0201, none⟩) ∧
    (after (step { s0 with pc := 0x1000 })).map State.fault = some (some ⟨.addressOutOfRange, 0x1000, none⟩) := by
  decide
/-- T-F3. -/
theorem test_fetch_last_word : tick 0x6012 { s0 with pc := 0x0FFE } (fun t => (t.v[0], t.pc)) =
    some (0x12, 0x1000) := by decide
/-- T-F7. -/
theorem test_fetch_masked : (after (step (poke 0x000 [0x00, 0xE0]
    (withCfg (fun c => { c with addrPolicy := .mask12 }) { s0 with pc := 0x1000 })))).map (fun t => (t.pc, t.fault)) =
    some (0x1002, none) := by decide
/-- T-F8. -/
theorem test_fetch_odd : (after (step (poke 0x201 [0x61, 0x07]
    (withCfg (fun c => { c with alignPolicy := .allow }) { s0 with pc := 0x0201 })))).map (fun t => (t.v[1], t.pc)) =
    some (0x07, 0x0203) := by decide
/-- T-F4. -/
theorem test_illegal_word_faults : tick 0x800D s0 State.fault = some (faultAt200 .unsupportedOpcode 0x800D) := by decide
/-- T-K10. -/
theorem test_halted : (after (step { s0 with
    fault := some ⟨.stackUnderflow, 0x200, some 0x00EE⟩, dt := 3, pending := [.timerTick] })).map (fun t => (t.dt, t.pc)) = some (3, 0x200) := by decide

/-! ## Control transfer (T-C) -/

/-- T-F5. -/
theorem test_sys : tick 0x0000 s0 (fun t => (t.fault, t.pc)) = some (faultAt200 .unsupportedOpcode 0x0000, 0x200) ∧
    tick 0x0000 (withCfg (fun c => { c with sysPolicy := .nop }) s0) (fun t => (t.fault, t.pc)) = some (none, 0x202) := by
  decide
/-- T-C1. -/
theorem test_jp : tick 0x1300 s0 State.pc = some 0x0300 := by decide
/-- T-C3. -/
theorem test_call : tick 0x2400 s0 (fun t => (t.stack[0], t.sp, t.pc)) = some (0x0202, 1, 0x0400) := by decide
/-- T-C5. -/
theorem test_call_overflow : tick 0x2400 { s0 with sp := 16 } (fun t => (t.fault, t.sp, t.pc)) =
    some (faultAt200 .stackOverflow 0x2400, 16, 0x200) := by decide
/-- T-C3. -/
theorem test_ret : tick 0x00EE { s0 with sp := 1, stack := s0.stack.set 0 0x0202, pc := 0x0400 }
    (fun t => (t.pc, t.sp)) = some (0x0202, 0) := by decide
/-- T-C4. -/
theorem test_ret_underflow : tick 0x00EE s0 (fun t => (t.fault, t.sp, t.pc)) =
    some (faultAt200 .stackUnderflow 0x00EE, 0, 0x200) := by decide
/-- T-C6, T-C7. -/
theorem test_skip_immediate : [0x3312, 0x3313, 0x4312, 0x4313].map (fun w => tick w (regs [(3, 0x12)] s0) State.pc) =
    [some 0x204, some 0x202, some 0x202, some 0x204] := by decide
/-- T-C8, T-C9. -/
theorem test_skip_register : [0x5120, 0x9120, 0x5110, 0x9110, 0x5130, 0x9130].map
    (fun w => tick w (regs [(1, 0x40), (2, 0x40)] s0) State.pc) =
    [some 0x204, some 0x202, some 0x204, some 0x202, some 0x202, some 0x204] := by decide
/-- T-C11, T-C12. -/
theorem test_jpV0 : tick 0xBFFF (regs [(0, 0xFF)] s0) State.pc = some 0x10FE ∧
    tick 0xB5F0 (regs [(5, 0xAB), (0, 0x02)] s0) State.pc = some 0x05F2 := by decide

/-! ## ALU (T-A): V1 or V3, and VF, which starts at 0x55 -/

/-- T-A1. -/
theorem test_ldImm : tick 0x6A2B (regs [(VF, 0x55)] s0) (fun t => (t.v[10], t.v[15], t.pc)) =
    some (0x2B, 0x55, 0x202) := by decide
/-- T-A2, T-A3. -/
theorem test_addImm : tick 0x7101 (regs [(1, 0xFF), (VF, 0x55)] s0) (fun t => (t.v[1], t.v[15])) = some (0x00, 0x55) ∧
    tick 0x7F01 (regs [(VF, 0xFF)] s0) (fun t => t.v[15]) = some 0x00 := by decide
/-- T-A4. -/
theorem test_ldReg : tick 0x8150 (regs [(5, 0x77)] s0) (fun t => (t.v[1], t.v[5])) = some (0x77, 0x77) := by decide
/-- T-A4b, T-A4c. -/
theorem test_logic : [0x8121, 0x8122, 0x8123, 0x8113].map
    (fun w => tick w (regs [(1, 0x3C), (2, 0x0F), (VF, 0x55)] s0) (fun t => (t.v[1], t.v[15]))) =
    [some (0x3F, 0x55), some (0x0C, 0x55), some (0x33, 0x55), some (0x00, 0x55)] := by decide
/-- T-A5. -/
theorem test_addReg : [(0x00, 0x00), (0xFF, 0x01), (0xFF, 0xFF), (0x7F, 0x80), (0x80, 0x80), (0xC8, 0x64)].map
    (fun p => tick 0x8124 (regs [(1, p.1), (2, p.2), (VF, 0x55)] s0) (fun t => (t.v[1], t.v[15]))) =
    [some (0x00, 0), some (0x00, 1), some (0xFE, 1), some (0xFF, 0), some (0x00, 1), some (0x2C, 1)] := by decide
/-- T-A5c, T-A5d. -/
theorem test_addReg_VF : tick 0x81F4 (regs [(1, 0x02), (VF, 0x01)] s0) (fun t => (t.v[1], t.v[15])) = some (0x03, 0) ∧
    [FlagOrder.destLast, .flagLast].map (fun o => tick 0x8F14
      (withCfg (fun c => { c with flagOrder := o }) (regs [(VF, 0xFF), (1, 0x01)] s0)) (fun t => t.v[15])) =
      [some 0x00, some 0x01] := by decide
/-- T-A6. -/
theorem test_subReg : [(0x05, 0x03), (0x03, 0x05), (0x05, 0x05), (0x00, 0xFF), (0xFF, 0x00)].map
    (fun p => tick 0x8125 (regs [(1, p.1), (2, p.2), (VF, 0x55)] s0) (fun t => (t.v[1], t.v[15]))) =
    [some (0x02, 1), some (0xFE, 0), some (0x00, 1), some (0x01, 0), some (0xFF, 1)] := by decide
/-- T-A6b. -/
theorem test_subReg_VF : [FlagOrder.destLast, .flagLast].map (fun o => tick 0x8F15
    (withCfg (fun c => { c with flagOrder := o }) (regs [(VF, 0x05), (1, 0x03)] s0)) (fun t => t.v[15])) =
    [some 0x02, some 0x01] := by decide
/-- T-A7, T-A7b. -/
theorem test_shr : [0x01, 0x02, 0xFF, 0x00].map
    (fun a => tick 0x8306 (regs [(3, a), (VF, 0x55)] s0) (fun t => (t.v[3], t.v[15]))) =
    [some (0x00, 1), some (0x01, 0), some (0x7F, 1), some (0x00, 0)] ∧
    tick 0x83A6 (regs [(3, 0x05), (10, 0xFF)] s0) (fun t => (t.v[3], t.v[15])) = some (0x02, 1) := by decide
/-- T-A7c. -/
theorem test_shr_VF : [FlagOrder.destLast, .flagLast].map (fun o => tick 0x8F06
    (withCfg (fun c => { c with flagOrder := o }) (regs [(VF, 0x02)] s0)) (fun t => t.v[15])) =
    [some 0x01, some 0x00] := by decide
/-- T-A8. -/
theorem test_subnReg : [(0x03, 0x05), (0x05, 0x03), (0x05, 0x05), (0x01, 0x00)].map
    (fun p => tick 0x8127 (regs [(1, p.1), (2, p.2), (VF, 0x55)] s0) (fun t => (t.v[1], t.v[15]))) =
    [some (0x02, 1), some (0xFE, 0), some (0x00, 1), some (0xFF, 0)] := by decide
/-- T-A9. -/
theorem test_shl : [0x80, 0x7F, 0xFF, 0x01].map
    (fun a => tick 0x830E (regs [(3, a), (VF, 0x55)] s0) (fun t => (t.v[3], t.v[15]))) =
    [some (0x00, 1), some (0xFE, 0), some (0xFE, 1), some (0x02, 0)] := by decide
/-- T-A8b, T-A9b. -/
theorem test_subn_shl_VF : [FlagOrder.destLast, .flagLast].map (fun o => (
    tick 0x8F17 (withCfg (fun c => { c with flagOrder := o }) (regs [(VF, 0x03), (1, 0x05)] s0)) (fun t => t.v[15]),
    tick 0x8F0E (withCfg (fun c => { c with flagOrder := o }) (regs [(VF, 0x81)] s0)) (fun t => t.v[15]))) =
    [(some 0x02, some 0x02), (some 0x01, some 0x01)] := by decide
/-- T-A10. -/
theorem test_rnd : [0xC10F, 0xC100, 0xC1FF, 0xC1F0].map
    (fun w => tick w { s0 with rand := [0xA7, 0x11] } (fun t => (t.v[1], t.rand))) =
    [some (0x07, [0x11]), some (0x00, [0x11]), some (0xA7, [0x11]), some (0xA0, [0x11])] := by decide

/-! ## Index and memory (T-M) -/

/-- T-M1. -/
theorem test_ldI : [0xA000, 0xAFFF].map (fun w => tick w s0 State.index) = [some 0x0000, some 0x0FFF] := by decide
/-- T-M2, T-M3, T-M4. -/
theorem test_addI : [(0x0300, 0x20), (0x0FFF, 0x01), (0xFFFF, 0x01), (0xFFF0, 0x20)].map
    (fun p => tick 0xF41E (regs [(4, p.2), (VF, 0x55)] { s0 with index := p.1 }) (fun t => (t.index, t.v[15], t.fault))) =
    [some (0x0320, 0x55, none), some (0x1000, 0x55, none), some (0x0000, 0x55, none), some (0x0010, 0x55, none)] := by
  decide
/-- T-M5. -/
theorem test_ldF : [0x00, 0x07, 0x0A, 0x0F].map (fun a => tick 0xF229 (regs [(2, a)] s0) State.index) =
    [some 0x0050, some 0x0073, some 0x0082, some 0x009B] := by decide
/-- T-M6. -/
theorem test_ldF_range : tick 0xF229 (regs [(2, 0x10)] { s0 with index := 0x321 }) (fun t => (t.index, t.fault)) =
    some (0x321, faultAt200 .fontDigitOutOfRange 0xF229) ∧
    tick 0xF229 (withCfg (fun c => { c with fontDigitPolicy := .lowNibble }) (regs [(2, 0x10)] s0)) State.index =
    some 0x0050 := by decide
/-- T-M7, T-M8. -/
theorem test_ldB : [0x00, 0x0A, 0x9C, 0xFF].map
    (fun a => tick 0xF733 (regs [(7, a)] { s0 with index := 0x300 }) (peek 0x300 3)) =
    [some [0, 0, 0], some [0, 1, 0], some [1, 5, 6], some [2, 5, 5]] ∧
    tick 0xF733 (regs [(7, 0x7B)] { s0 with index := 0xFFD }) (peek 0xFFD 3) = some [1, 2, 3] := by decide
/-- T-M9, T-M10. -/
theorem test_ldB_checks : tick 0xF733 (regs [(7, 0x9C)] { s0 with index := 0xFFE }) (fun t => (t.fault, peek 0xFFE 2 t)) =
    some (faultAt200 .addressOutOfRange 0xF733, [0, 0]) ∧
    tick 0xF733 (regs [(7, 0x9C)] { s0 with index := 0x1FE }) (fun t => (t.fault, peek 0x1FE 2 t)) =
    some (faultAt200 .reservedWrite 0xF733, [0, 0]) ∧
    tick 0xF733 (withCfg (fun c => { c with reservedWritePolicy := .allow })
      (regs [(7, 0x9C)] { s0 with index := 0x1FE })) (peek 0x1FE 3) = some [1, 5, 6] := by decide
/-- T-M11. -/
theorem test_storeRegs : [false, true].map (fun b => tick 0xF255 (withCfg (fun c => { c with lsIncrementI := b })
    (regs [(0, 0x11), (1, 0x22), (2, 0x33), (3, 0x44)] { s0 with index := 0x400 }))
    (fun t => (peek 0x400 4 t, t.index))) =
    [some ([0x11, 0x22, 0x33, 0x00], 0x400), some ([0x11, 0x22, 0x33, 0x00], 0x403)] := by decide
/-- T-M14, T-M15. -/
theorem test_storeRegs_checks : [0x0FF1, 0x01F0].map
    (fun i => tick 0xFF55 (regs [(0, 0x99)] { s0 with index := i }) (fun t => (t.fault, Memory.read t.mem i.toNat))) =
    [some (faultAt200 .addressOutOfRange 0xFF55, 0), some (faultAt200 .reservedWrite 0xFF55, 0)] := by decide
/-- T-M16. -/
theorem test_loadRegs : tick 0xF465 { loadFont State.reset with index := 0x50 } (fun t => (t.v.toList.take 6, t.index)) =
    some ([0xF0, 0x90, 0x90, 0x90, 0xF0, 0x00], 0x50) := by decide
/-- T-M17. -/
theorem test_loadRegs_range : tick 0xF165 (regs [(0, 0x12)] { s0 with index := 0x0FFF }) (fun t => (t.fault, t.v[0])) =
    some (faultAt200 .addressOutOfRange 0xF165, 0x12) := by decide

/-! ## Display (T-D) -/

/-- T-D1. -/
theorem test_cls : tick 0x00E0 (regs [(VF, 0x55)] { s0 with disp := Display.toggle Display.clear 63 31 })
    (fun t => (pixels [(63, 31), (0, 0)] t, t.v[15], t.pc)) = some ([false, false], 0x55, 0x202) := by decide
/-- T-D4: 0xFF at column 60 goes around the edge of its own row. -/
theorem test_drw_wraps_columns : tick 0xD011 (regs [(0, 0x3C)] (poke 0x300 [0xFF] { s0 with index := 0x300 }))
    (fun t => (pixels [(59, 0), (60, 0), (63, 0), (0, 0), (3, 0), (4, 0), (0, 1)] t, t.v[15])) =
    some ([false, true, true, true, true, false, false], 0) := by decide
/-- T-D5, T-D12. -/
theorem test_drw_wraps_rows_and_collides :
    tick 0xD012 (regs [(0, 5), (1, 31)] (poke 0x300 [0x80, 0x80] { s0 with index := 0x300 }))
      (fun t => (pixels [(5, 31), (5, 0), (5, 1)] t, t.v[15])) = some ([true, true, false], 0) ∧
    tick 0xD011 (poke 0x300 [0xC0] { s0 with index := 0x300, disp := Display.toggle Display.clear 0 0 })
      (fun t => (pixels [(0, 0), (1, 0)] t, t.v[15])) = some ([false, true], 1) := by decide
/-- T-D9. -/
theorem test_drw_range : tick 0xD012 (regs [(VF, 0x55)] { s0 with index := 0xFFF }) (fun t => (t.fault, t.v[15])) =
    some (faultAt200 .addressOutOfRange 0xD012, 0x55) := by decide

/-! ## Keys and timers (T-K) -/

/-- T-K1, T-K2. -/
theorem test_key_skips : [(0xE59E, true), (0xE59E, false), (0xE5A1, true), (0xE5A1, false)].map
    (fun p => tick p.1 (regs [(5, 0x0A)] { s0 with key := s0.key.set 10 p.2 }) State.pc) =
    [some 0x204, some 0x202, some 0x202, some 0x204] := by decide
/-- T-K3. -/
theorem test_key_range : tick 0xE59E (regs [(5, 0x10)] s0) State.fault =
    some (faultAt200 .keyIndexOutOfRange 0xE59E) ∧
    tick 0xE59E (withCfg (fun c => { c with keyIndexPolicy := .lowNibble })
      (regs [(5, 0x10)] { s0 with key := s0.key.set 0 true })) State.pc = some 0x204 := by decide
/-- T-K4. -/
theorem test_ldVxDt : tick 0xF307 { s0 with dt := 0x3C } (fun t => (t.v[3], t.pc)) = some (0x3C, 0x202) := by decide
/-- T-K5, T-K8: the writes. -/
theorem test_timer_writes : tick 0xF118 (regs [(1, 0x02)] s0) (fun t => (t.st, toneOutput t)) = some (2, true) ∧
    tick 0xF115 (regs [(1, 0x05)] s0) State.dt = some 5 := by decide
/-- T-K5, T-K9. -/
theorem test_timerTick : (after (step { s0 with dt := 0, st := 1, pending := [.timerTick] })).map
    (fun t => (t.dt, t.st, toneOutput t)) = some (0, 0, false) := by decide
/-- T-K7 (a). -/
theorem test_ldVxK : tick 0xF30A { s0 with pc := 0x300 } (fun t => (t.run, t.waitReg, t.pc)) =
    some (.awaitingKey, 3, 0x300) := by decide
/-- T-K7 (d), (f). -/
theorem test_keyEvent : ([2, 7] : List Key).map (fun k => (after (step { s0 with
      pc := 0x300, run := .awaitingKey, waitReg := 3, key := s0.key.set 2 true, pending := [.keyEvent k true] })).map
      (fun t => (t.v[3], t.pc, t.run, t.key[7]))) =
    [some (0, 0x300, .awaitingKey, false), some (7, 0x302, .running, true)] := by decide
/-- T-K11. -/
theorem test_keyEvent_running : (after (step { s0 with pending := [.keyEvent 4 true] })).map
    (fun t => (t.key[4], t.v[4], t.pc)) = some (true, 0, 0x200) := by decide

/-- R38: the status word of a core that waits for V3, and of one whose fetch has faulted (T-K7 (a), T-F1). -/
theorem test_statusRead :
    (tick 0xF30A s0 fun t => ((statusRead t).run, (statusRead t).waitReg, (statusRead t).faultValid)) =
      some (1, some 3, 0) ∧
    (after (step { s0 with pc := 0x0201 })).map
      (fun t => ((statusRead t).faultKind, (statusRead t).faultAddr, (statusRead t).faultWordValid)) =
      some (some 0x5, some 0x0201, some 0) := by decide

/-! ## Loads (T-L) -/

/-- T-L1, T-L2. -/
theorem test_loadProgram_sizes : (loadProgram (List.replicate 3584 0xAB) State.reset).1 = .ok ∧
    (loadProgram (List.replicate 3585 0xAB) State.reset).1 = .loadTooLarge := by
  rw [loadProgram_ok _ (by rw [List.length_replicate]; decide),
    loadProgram_tooLarge _ (by rw [List.length_replicate]; decide)]
  exact ⟨rfl, rfl⟩
/-- A font byte of R263: digit F, last row. -/
theorem test_loadFont : (after (step { State.reset with pending := [.loadFont] })).map
    (fun t => (peek 0x09B 6 t, peek 0x04F 2 t)) = some ([0xF0, 0x80, 0xF0, 0x80, 0x80, 0x00], [0x00, 0xF0]) := by decide

/-! ## Witnesses: for every statement with hypotheses, a concrete state and operands that meet them, one per clause at
the edge of its range -/

theorem s0_executing : executing s0 := ⟨rfl, rfl, rfl⟩

/-- A core that waits for a key at 0x200, for V3. -/
def waiting : State := { poke 0x200 [0xF3, 0x0A] s0 with run := .awaitingKey, waitReg := 3 }

/-- A core that has executed an illegal word. -/
def halted : State := { poke 0x200 [0xFF, 0xFF] s0 with fault := some ⟨.unsupportedOpcode, 0x200, some 0xFFFF⟩ }

theorem waiting_inv : StatusInv waiting :=
  ⟨fun h => absurd rfl h, fun _ => ⟨rfl, rfl⟩, fun _ h => by cases h⟩
theorem halted_inv : StatusInv halted :=
  ⟨fun h => absurd rfl h, fun h => (by cases h), fun _ h => (by cases h; exact ⟨rfl, rfl, rfl⟩)⟩
theorem reset_inv : StatusInv { State.reset with pending := [.timerTick] } :=
  ⟨fun _ => ⟨rfl, rfl⟩, fun h => (by cases h), fun _ h => (by cases h)⟩

theorem witness_DecodeEncodeRoundTrip :
    wellFormed (.sys 0x0E1) = true ∧ wellFormed (.sys 0xFFF) = true ∧ wellFormed (.drw 15 15 15) = true := by decide
theorem witness_EncodeDecodeRoundTrip : decode 0xFF65 = .ok (.loadRegs 15) ∧ decode 0x0000 = .ok (.sys 0) := ⟨rfl, rfl⟩
theorem witness_WordsDecodeToTheRowTheyMatch : (opcodeRow (.sys 0)).matchesWord 0x00EE = true ∧
    (opcodeRow (.loadRegs 0)).matchesWord 0xFF65 = true ∧ decode 0xFF65 = .ok (.loadRegs 15) := ⟨rfl, rfl, rfl⟩
theorem witness_IllegalWordsAreUnsupported : executing (poke 0x200 [0xE1, 0xA2] s0) ∧
    fetch (poke 0x200 [0xE1, 0xA2] s0) = .ok 0xE1A2 ∧
    illegalWord 0xE1A2 ∧ illegalWord 0x5001 ∧ illegalWord 0x9FFF ∧ illegalWord 0x8008 ∧ illegalWord 0x800F ∧
    illegalWord 0xF000 ∧ illegalWord 0xFFFF :=
  ⟨⟨rfl, rfl, rfl⟩, rfl, by unfold illegalWord; decide, by unfold illegalWord; decide,
    by unfold illegalWord; decide, by unfold illegalWord; decide, by unfold illegalWord; decide,
    by unfold illegalWord; decide, by unfold illegalWord; decide⟩
theorem witness_StepRunsTheDecodedInstruction : executing { poke 0xFFE [0x60, 0x12] s0 with pc := 0xFFE } ∧
    nextIsCpuTick { poke 0xFFE [0x60, 0x12] s0 with pc := 0xFFE } [] ∧ 0xFFE % 2 = 0 ∧ s0.pending = [] ∧
    decodeBytes [Memory.read (poke 0xFFE [0x60, 0x12] s0).mem (byteAddr 0xFFE),
      Memory.read (poke 0xFFE [0x60, 0x12] s0).mem (byteAddr 0xFFF)] = .ok (.ldImm 0 0x12, []) :=
  ⟨⟨rfl, rfl, rfl⟩, Or.inr ⟨rfl, rfl⟩, rfl, rfl, rfl⟩
theorem witness_StepRunsTheDecodedInstruction_masked_odd :
    let s := withCfg (fun c => { c with addrPolicy := .mask12, alignPolicy := .allow })
      { poke 0x001 [0x00, 0xE0] s0 with pc := 0x1001, pending := [.cpuTick] }
    executing s ∧ nextIsCpuTick s [] ∧ s.cfg.alignPolicy = .allow ∧ s.cfg.addrPolicy = .mask12 ∧
      decodeBytes [Memory.read s.mem (byteAddr s.pc.toNat), Memory.read s.mem (byteAddr (s.pc.toNat + 1))] =
        .ok (.cls, []) :=
  ⟨⟨rfl, rfl, rfl⟩, Or.inl rfl, rfl, rfl, rfl⟩
theorem witness_FetchChecksThenReadsBigEndian : s0.cfg.alignPolicy = .fault ∧ s0.cfg.addrPolicy = .fault ∧
    executing { s0 with pc := 0xFFF } ∧ (0xFFF : Word).toNat % 2 = 1 ∧ (0x1000 : Word).toNat > 0xFFE ∧
    (0x1000 : Word).toNat % 2 = 0 ∧ (0xFFE : Word).toNat ≤ 0xFFE ∧ (0xFFE : Word).toNat % 2 = 0 :=
  ⟨rfl, rfl, ⟨rfl, rfl, rfl⟩, rfl, by decide, rfl, by decide, rfl⟩
theorem witness_HaltedCoreIsFrozen : StatusInv halted ∧ halted.fault ≠ none ∧ step halted = .next halted :=
  ⟨halted_inv, by simp [halted], rfl⟩
theorem witness_WaitingCoreIgnoresCpuTicks : waiting.run = .awaitingKey := rfl
/-- With a word, and with none (the fetch faults). -/
theorem witness_FaultsArePrecise : (poke 0x200 [0xFF, 0xFF] s0).fault = none ∧
    step (poke 0x200 [0xFF, 0xFF] s0) = .next halted ∧ halted.fault = some ⟨.unsupportedOpcode, 0x200, some 0xFFFF⟩ ∧
    (after (step { s0 with pc := 0x1000 })).map State.fault = some (some ⟨.addressOutOfRange, 0x1000, none⟩) :=
  ⟨rfl, rfl, rfl, by decide⟩
theorem witness_InstructionsRaiseOnlyTheirFaults : s0.fault = none ∧
    exec .ret s0 = .next (recordFault .stackUnderflow (some 0x00EE) s0) ∧
    (recordFault .stackUnderflow (some 0x00EE) s0).fault = faultAt200 .stackUnderflow 0x00EE := ⟨rfl, rfl, rfl⟩
theorem witness_SysFollowsItsPolicy : s0.cfg.sysPolicy = .fault ∧
    (withCfg (fun c => { c with sysPolicy := .nop }) s0).cfg.sysPolicy = .nop := ⟨rfl, rfl⟩
theorem witness_CallPushesAndJumps : ({ s0 with sp := 15 } : State).sp.val < 16 ∧
    ({ s0 with sp := 16 } : State).sp.val = 16 := ⟨by decide, rfl⟩
theorem witness_ReturnPopsItsAddress : ({ s0 with sp := 1 } : State).sp.val ≠ 0 ∧
    ({ s0 with sp := 16 } : State).sp.val ≠ 0 ∧ s0.sp.val = 0 := ⟨by decide, by decide, rfl⟩
theorem witness_CallThenReturnComesBack : ({ s0 with sp := 15 } : State).sp.val < 16 ∧
    ∃ t, exec (.call 0x400) { s0 with sp := 15 } = .next t ∧ t.sp = 16 := ⟨by decide, _, rfl, rfl⟩
theorem witness_SeventeenthNestedCallOverflows : s0.sp.val = 0 ∧ (List.replicate 16 (0x200 : Addr12)).length = 16 :=
  ⟨rfl, rfl⟩
/-- X is not F, and X is F under each order; for the adds, the subtracts and the shifts. -/
theorem witness_AddSetsTheCarry : (14 : Reg) ≠ VF ∧ (15 : Reg) = VF ∧ s0.cfg.flagOrder = .destLast ∧
    (withCfg (fun c => { c with flagOrder := .flagLast }) s0).cfg.flagOrder = .flagLast := by decide
theorem witness_SubtractsSetNotBorrow : (0 : Reg) ≠ VF ∧ (15 : Reg) = VF ∧ s0.cfg.flagOrder = .destLast ∧
    (withCfg (fun c => { c with flagOrder := .flagLast }) s0).cfg.flagOrder = .flagLast := by decide
theorem witness_ShiftsMoveOneBitOut : (0 : Reg) ≠ VF ∧ (15 : Reg) = VF ∧ s0.cfg.flagOrder = .destLast ∧
    (withCfg (fun c => { c with flagOrder := .flagLast }) s0).cfg.flagOrder = .flagLast := by decide
theorem witness_RandomDrawsOneMaskedByte : ({ s0 with rand := [0xA7] } : State).rand = 0xA7 :: [] ∧ (0x00 : Byte) = 0 :=
  ⟨rfl, rfl⟩
theorem witness_FontLookupAddressesTheDigit : (regs [(2, 0x0F)] s0).v[2].toNat ≤ 0xF ∧
    (regs [(2, 0x10)] s0).v[2].toNat > 0xF ∧ s0.cfg.fontDigitPolicy = .fault ∧
    (withCfg (fun c => { c with fontDigitPolicy := .lowNibble }) s0).cfg.fontDigitPolicy = .lowNibble := by decide
theorem witness_AddressChecksFollowThePolicies : 0xFFF ≤ 0xFFF ∧ 0x1000 > 0xFFF ∧ defaultConfig.addrPolicy = .fault ∧
    checkAddr defaultConfig .read 0x1FF = .ok 0x1FF ∧ defaultConfig.reservedWritePolicy = .fault ∧
    checkAddr defaultConfig .read 0x200 = .ok 0x200 ∧ 0x200 > 0x1FF ∧
    checkAddr { defaultConfig with addrPolicy := .mask12 } .read 0x11FF = .ok 0x1FF ∧
    ({ defaultConfig with reservedWritePolicy := .allow } : Config).reservedWritePolicy = .allow :=
  ⟨by decide, by decide, rfl, rfl, rfl, rfl, by decide, rfl, rfl⟩
/-- Lowest and highest block; the lowest failing address first and last. -/
theorem witness_BcdStoresThreeDigits : Memory.wf s0.mem = true ∧ blockAllowed { s0 with index := 0x200 } .write 3 ∧
    blockAllowed { s0 with index := 0xFFD } .write 3 ∧ ¬ allowed s0.cfg .write (0x1FE + 0) ∧
    (∀ j < 2, allowed s0.cfg .write (0xFFE + j)) ∧ ¬ allowed s0.cfg .write (0xFFE + 2) := by
  unfold blockAllowed allowed inRange mayWrite byteAddr; decide
theorem witness_StoreRegistersFillsTheBlock : Memory.wf s0.mem = true ∧ blockAllowed { s0 with index := 0xFF0 } .write 16 ∧
    blockAllowed { s0 with index := 0x200 } .write 1 ∧ s0.cfg.lsIncrementI = false ∧
    (withCfg (fun c => { c with lsIncrementI := true }) s0).cfg.lsIncrementI = true ∧
    (∀ j < 15, allowed s0.cfg .write (0xFF1 + j)) ∧ ¬ allowed s0.cfg .write (0xFF1 + 15) ∧
    ¬ allowed s0.cfg .write (0x1FF + 0) := by
  refine ⟨rfl, ?_, ?_, rfl, rfl, ?_, ?_, ?_⟩ <;> simp only [blockAllowed, allowed, inRange, mayWrite, byteAddr] <;> decide
theorem witness_LoadRegistersReadsTheBlock : blockAllowed { s0 with index := 0xFF0 } .read 16 ∧
    blockAllowed { s0 with index := 0x000 } .read 1 ∧ s0.cfg.lsIncrementI = false ∧
    (withCfg (fun c => { c with lsIncrementI := true }) s0).cfg.lsIncrementI = true ∧
    (∀ j < 1, allowed s0.cfg .read (0xFFF + j)) ∧ ¬ allowed s0.cfg .read (0xFFF + 1) := by
  unfold blockAllowed allowed inRange mayWrite byteAddr; decide
theorem witness_StoreThenLoadGivesRegistersBack : Memory.wf s0.mem = true ∧
    blockAllowed { s0 with index := 0x200 } .write 16 ∧
    ∃ t, exec (.storeRegs 15) { s0 with index := 0x200 } = .next t ∧ t.index = 0x200 ∧ t.cfg = s0.cfg := by
  refine ⟨rfl, ?_, _, rfl, rfl, rfl⟩
  unfold blockAllowed allowed inRange mayWrite byteAddr; decide
theorem witness_StoredWordIsFetched : Memory.wf s0.mem = true ∧ blockAllowed { s0 with index := 0x204 } .write 2 ∧
    0 + 1 ≤ (1 : Reg).val ∧ (0x204 : Word).toNat = (0x204 : Word).toNat + 0 ∧ (0x204 : Word).toNat % 2 = 0 ∧
    (0x204 : Word).toNat ≤ 0xFFE := by
  unfold blockAllowed allowed inRange mayWrite byteAddr; decide
theorem witness_SpriteCoversWhereItsBitsLand : (List.replicate 32 (0xFF : Byte)).length ≤ 32 := by decide
theorem witness_DrawXorsTheSpriteAndReportsCollision : blockAllowed { s0 with index := 0x300 } .read (0xF : Nibble).toNat ∧
    blockAllowed { s0 with index := 0xFFFF } .read (0x0 : Nibble).toNat ∧
    (∀ j < 1, allowed s0.cfg .read (0xFFF + j)) ∧ ¬ allowed s0.cfg .read (0xFFF + 1) := by
  unfold blockAllowed allowed inRange mayWrite byteAddr; decide
theorem witness_DrawingTwiceRestoresTheBuffer : blockAllowed { s0 with index := 0x300 } .read (0xF : Nibble).toNat ∧
    s0.disp = Display.clear ∧
    ∃ t, exec (.drw 0 1 0xF) { s0 with index := 0x300 } = .next t ∧ t.index = 0x300 ∧ t.v[0] = 0 ∧ t.v[1] = 0 := by
  refine ⟨?_, rfl, _, rfl, rfl, rfl, rfl⟩
  unfold blockAllowed allowed inRange mayWrite byteAddr; decide
theorem witness_KeySkipsTestTheLatch : (regs [(5, 0x0F)] s0).v[5].toNat ≤ 0xF ∧ (regs [(5, 0x10)] s0).v[5].toNat > 0xF ∧
    s0.cfg.keyIndexPolicy = .fault ∧
    (withCfg (fun c => { c with keyIndexPolicy := .lowNibble }) s0).cfg.keyIndexPolicy = .lowNibble := by decide
/-- A press edge that completes the wait, and a press of a key already held, which does not. -/
theorem witness_KeyEventWritesLatchAndCompletesWait : waiting.fault = none ∧ waiting.run = .awaitingKey ∧
    waiting.key[(7 : Key)] = false ∧ ({ waiting with key := waiting.key.set 2 true } : State).key[(2 : Key)] ≠ false :=
  ⟨rfl, rfl, rfl, by decide⟩
theorem witness_KeyWaitHoldsUntilAPressEdge : waiting.run = .awaitingKey ∧ waiting.fault = none ∧
    (∀ t ∈ [Transaction.cpuTick, .timerTick, .keyEvent 2 false, .displayRead, .toneRead, .statusRead], keepsWaiting t) ∧
    waiting.key[(7 : Key)] = false := by
  refine ⟨rfl, rfl, fun t ht => ?_, rfl⟩
  simp only [List.mem_cons, List.not_mem_nil, or_false] at ht
  rcases ht with rfl | rfl | rfl | rfl | rfl | rfl <;> simp [keepsWaiting]
theorem witness_TimerTickCountsBothDown : s0.boot = .started ∧ s0.fault = none ∧ halted.boot = .started ∧
    halted.fault ≠ none := ⟨rfl, rfl, rfl, by simp [halted]⟩
theorem witness_TimersStopAtZero : s0.boot = .started ∧ s0.fault = none ∧
    ({ s0 with dt := 5, pending := List.replicate 6 .timerTick } : State).pending = List.replicate 6 .timerTick ++ [] :=
  ⟨rfl, rfl, rfl⟩
theorem witness_ResetMemoryHoldsTheFill :
    ({ defaultConfig with memFill := .byte 0xAA } : Config).memFill = .byte 0xAA ∧ 0xFFF < 4096 := ⟨rfl, by decide⟩
theorem witness_LoadFontWritesTheTable : State.reset.boot = .afterReset ∧ Memory.wf State.reset.mem = true ∧
    0x04F < 0x050 ∧ 0x09F < 0x0A0 := ⟨rfl, rfl, by decide, by decide⟩
theorem witness_LoadProgramCopiesOrRefuses : ({ State.reset with boot := .fontLoaded } : State).boot = .fontLoaded ∧
    Memory.wf ({ State.reset with boot := .fontLoaded } : State).mem = true ∧
    (List.replicate 3584 (0xAB : Byte)).length ≤ 3584 ∧ (List.replicate 3585 (0xAB : Byte)).length > 3584 := by
  rw [List.length_replicate, List.length_replicate]
  exact ⟨rfl, rfl, by decide, by decide⟩
theorem witness_NothingRunsBeforeTheStart : StatusInv { State.reset with pending := [.timerTick] } ∧
    State.reset.boot ≠ .started ∧ State.reset.boot ≠ .fontLoaded ∧ s0.boot ≠ .afterReset ∧ s0.boot ≠ .fontLoaded :=
  ⟨reset_inv, by decide, by decide, by decide, by decide⟩
theorem witness_BootLeadsToTheFirstWord : (List.replicate 3582 (0xAB : Byte)).length ≤ 3582 := by
  rw [List.length_replicate]
theorem witness_StepKeepsMemoryCanonical : Memory.wf s0.mem = true ∧ ∃ t,
    step ({ s0 with index := 0x300 }.withFetchWord 16 0xF033) = .next t := ⟨rfl, _, rfl⟩
theorem witness_StepKeepsStatusConsistent : StatusInv waiting ∧ StatusInv halted ∧
    step waiting = .next waiting ∧ step halted = .next halted := ⟨waiting_inv, halted_inv, rfl, rfl⟩
theorem witness_OnlyCallAndReturnTouchTheStack : (∀ nnn, (Instr.ret) ≠ .call nnn) ∧ (Instr.cls) ≠ .ret ∧
    ∃ t, exec .cls s0 = .next t := ⟨fun _ h => (by cases h), fun h => (by cases h), _, rfl⟩
theorem witness_OnlyDisplayInstructionsTouchTheDisplay : (Instr.ret) ≠ .cls ∧ (∀ x y n, (Instr.ret) ≠ .drw x y n) ∧
    ∃ t, exec .ret { s0 with sp := 1 } = .next t := ⟨fun h => (by cases h), fun _ _ _ h => (by cases h), _, rfl⟩
theorem witness_OnlyTheirWritersTouchIndexAndTimers : s0.cfg.lsIncrementI = false ∧ (∀ nnn, (Instr.cls) ≠ .ldI nnn) ∧
    (∀ x, (Instr.cls) ≠ .addI x) ∧ (∀ x, (Instr.cls) ≠ .ldF x) ∧ (∀ x, (Instr.cls) ≠ .ldDtVx x) ∧
    (∀ x, (Instr.cls) ≠ .ldStVx x) ∧ (∀ x nn, (Instr.cls) ≠ .rnd x nn) ∧ ∃ t, exec .cls s0 = .next t :=
  ⟨rfl, fun _ h => (by cases h), fun _ h => (by cases h), fun _ h => (by cases h), fun _ h => (by cases h),
    fun _ h => (by cases h), fun _ _ h => (by cases h), _, rfl⟩
theorem witness_RegistersChangeOnlyAsListed : (∃ t, exec (.loadRegs 14) s0 = .next t) ∧
    ¬ writesReg (.loadRegs 14) 15 ∧ ¬ writesReg (.addReg 1 2) 2 := by
  refine ⟨⟨_, rfl⟩, ?_, ?_⟩ <;> simp only [writesReg, VF] <;> decide
theorem witness_MemoryChangesOnlyWhereStored : (∃ t, exec (.ldB 7) { s0 with index := 0x300 } = .next t) ∧
    (∀ k < storeCount (.ldB 7), 0x303 ≠ blockAddr { s0 with index := 0x300 } k) ∧
    ∀ k < storeCount (.ldB 7), 0x2FF ≠ blockAddr { s0 with index := 0x300 } k := by
  refine ⟨⟨_, rfl⟩, ?_⟩
  unfold blockAddr byteAddr storeCount; decide
theorem witness_KeyWaitIsEnteredAndLeftAsStated : (poke 0x200 [0xF3, 0x0A] s0).run = .running ∧
    step (poke 0x200 [0xF3, 0x0A] s0) = .next waiting ∧ waiting.run = .awaitingKey ∧
    (after (step { waiting with pending := [.keyEvent 7 true] })).map State.run = some .running :=
  ⟨rfl, rfl, rfl, by decide⟩
theorem witness_LatchChangesOnlyByKeyEvents : ∃ t, step { s0 with pending := [.keyEvent 15 true] } = .next t ∧
    t.key[15] = true := ⟨_, rfl, rfl⟩
theorem witness_DisplayReadIsRowMajor :
    Transaction.statusRead ∈ [Transaction.displayRead, .toneRead, .statusRead] := by decide
/-- Waiting and Running; a fault with a word, one with none (a fetch that faults, T-F1), and no fault. -/
theorem witness_ToneAndStatusFollowTheState : waiting.run = .awaitingKey ∧ halted.run = .running ∧
    halted.fault = some ⟨.unsupportedOpcode, 0x200, some 0xFFFF⟩ ∧ waiting.fault = none ∧
    (after (step { s0 with pc := 0x0201 })).map State.fault = some (some ⟨.pcMisaligned, 0x0201, none⟩) :=
  ⟨rfl, rfl, rfl, rfl, by decide⟩

end Sys2Proof.Tests
end

section
/-! PROOFS. Facts about the decoder, the instructions and the steps that more than one statement needs: the word of a
decoded instruction, which fields each instruction writes, and the step as the transaction it performs. -/

namespace Sys2Proof

/-! ## The word of a decoded instruction (30_encoding.md R85, R86) -/

theorem formatXNN_of_fieldNN {op c : Nat} {w : Word} (hop : (fieldOp w).toNat = op) (hc : (fieldNN w).toNat = c) :
    formatXNN op (fieldX w) (BitVec.ofNat 8 c) = w := by
  rw [← hc, BitVec.ofNat_toNat, BitVec.setWidth_eq]
  exact formatXNN_fields hop

theorem formatXYN_of_fieldN {op c : Nat} {w : Word} (hop : (fieldOp w).toNat = op) (hc : (fieldN w).toNat = c) :
    formatXYN op (fieldX w) (fieldY w) (BitVec.ofNat 4 c) = w := by
  rw [← hc, BitVec.ofNat_toNat, BitVec.setWidth_eq]
  exact formatXYN_fields hop

theorem encode_decode0 {w : Word} (hop : (fieldOp w).toNat = 0x0) : encode (decode0 w) = w := by
  unfold decode0
  split_ifs with hcls hret
  · exact hcls.symm
  · exact hret.symm
  · exact formatNNN_fields hop

theorem encode_of_decode8 {w : Word} {i : Instr} (hop : (fieldOp w).toNat = 0x8) (h : decode8 w = .ok i) :
    encode i = w := by
  unfold decode8 at h
  split at h <;> cases h <;> exact formatXYN_of_fieldN hop ‹_›

theorem encode_of_decodeE {w : Word} {i : Instr} (hop : (fieldOp w).toNat = 0xE) (h : decodeE w = .ok i) :
    encode i = w := by
  unfold decodeE at h
  split at h <;> cases h <;> exact formatXNN_of_fieldNN hop ‹_›

theorem encode_of_decodeF {w : Word} {i : Instr} (hop : (fieldOp w).toNat = 0xF) (h : decodeF w = .ok i) :
    encode i = w := by
  unfold decodeF at h
  split at h <;> cases h <;> exact formatXNN_of_fieldNN hop ‹_›

/-- No bit of a word is dropped by the decoder. -/
theorem encode_of_decode {w : Word} {i : Instr} (h : decode w = .ok i) : encode i = w := by
  unfold decode at h
  split at h
  case h_1 hop => cases h; exact encode_decode0 hop
  case h_2 hop | h_3 hop | h_11 hop | h_12 hop => cases h; exact formatNNN_fields hop
  case h_4 hop | h_5 hop | h_7 hop | h_8 hop | h_13 hop => cases h; exact formatXNN_fields hop
  case h_6 hop | h_10 hop =>
    split at h
    · next hn => cases h; exact formatXYN_of_fieldN hop (congrArg BitVec.toNat hn)
    · cases h
  case h_9 hop => exact encode_of_decode8 hop h
  case h_14 hop => cases h; exact formatXYN_fields hop
  case h_15 hop => exact encode_of_decodeE hop h
  case h_16 hop => exact encode_of_decodeF hop h
  case h_17 => cases h

end Sys2Proof

namespace Sys2Proof.Machine

/-! ## Which fields an instruction writes -/

theorem skipIf_eq (c : Bool) (s : State) : skipIf c s = { s with pc := (skipIf c s).pc } := by
  cases c <;> rfl

theorem incrementIndex_eq (x : Reg) (s : State) :
    incrementIndex x s = { s with index := (incrementIndex x s).index } := by
  unfold incrementIndex; split <;> rfl

theorem advance2_writeFlagged (x : Reg) (r : Byte) (f : Bool) (s : State) :
    advance2 (writeFlagged x r f s) =
      { s with pc := (advance2 (writeFlagged x r f s)).pc, v := (advance2 (writeFlagged x r f s)).v } := by
  unfold writeFlagged; split <;> rfl

/-- The fields an instruction may write when it completes (10_state.md R22 to R41); every other one is as it was. -/
def writesOnly (i : Instr) (s t : State) : Prop :=
  match i with
  | .sys _ | .jp _ | .seImm _ _ | .sneImm _ _ | .seReg _ _ | .sneReg _ _ | .jpV0 _ | .skp _ | .sknp _ =>
    t = { s with pc := t.pc }
  | .call _ => t = { s with pc := t.pc, sp := t.sp, stack := t.stack }
  | .ret => t = { s with pc := t.pc, sp := t.sp }
  | .cls => t = { s with pc := t.pc, disp := t.disp }
  | .drw _ _ _ => t = { s with pc := t.pc, disp := t.disp, v := t.v }
  | .ldImm _ _ | .addImm _ _ | .ldReg _ _ | .orReg _ _ | .andReg _ _ | .xorReg _ _ | .addReg _ _ | .subReg _ _
  | .shr _ _ | .subnReg _ _ | .shl _ _ | .ldVxDt _ => t = { s with pc := t.pc, v := t.v }
  | .rnd _ _ => t = { s with pc := t.pc, v := t.v, rand := t.rand, draws := t.draws }
  | .ldVxK _ => t = { s with run := t.run, waitReg := t.waitReg }
  | .ldDtVx _ => t = { s with pc := t.pc, dt := t.dt }
  | .ldStVx _ => t = { s with pc := t.pc, st := t.st }
  | .ldI _ | .addI _ | .ldF _ => t = { s with pc := t.pc, index := t.index }
  | .ldB _ => t = { s with pc := t.pc, mem := t.mem }
  | .storeRegs _ => t = { s with pc := t.pc, mem := t.mem, index := t.index } ∧
      (s.cfg.lsIncrementI = false → t.index = s.index)
  | .loadRegs _ => t = { s with pc := t.pc, v := t.v, index := t.index } ∧
      (s.cfg.lsIncrementI = false → t.index = s.index)

/-- An instruction ends in a fault that is only recorded, or completes and writes its own fields. -/
theorem exec_writesOnly {i : Instr} {s t : State} (h : exec i s = .next t) :
    (∃ k, t = recordFault k (some (encode i)) s) ∨ writesOnly i s t := by
  cases i <;> simp only [exec] at h
  case sys | drw | ldF | ldB =>
    simp only [execSys, execDrw, execLdF, execLdB] at h
    split at h <;> cases h
    · exact Or.inl ⟨_, rfl⟩
    · exact Or.inr rfl
  case ret =>
    unfold execRet at h
    rcases popReturn_cases (s := s) with ⟨_, hp⟩ | ⟨_, hp⟩ <;> rw [hp] at h <;> cases h
    · exact Or.inl ⟨_, rfl⟩
    · exact Or.inr rfl
  case call nnn =>
    unfold execCall at h
    rcases pushReturn_cases (a := s.pc + 2) (s := s) with ⟨_, hp⟩ | ⟨_, hp⟩ <;> rw [hp] at h <;> cases h
    · exact Or.inl ⟨_, rfl⟩
    · exact Or.inr rfl
  case seImm | sneImm | seReg | sneReg => cases h; exact Or.inr (skipIf_eq _ s)
  case skp | sknp =>
    simp only [execSkp, execSknp] at h
    split at h <;> cases h
    · exact Or.inl ⟨_, rfl⟩
    · exact Or.inr (skipIf_eq _ s)
  case addReg | subReg | shr | subnReg | shl => cases h; exact Or.inr (advance2_writeFlagged ..)
  case storeRegs x =>
    unfold execStoreRegs at h
    split at h <;> cases h
    · exact Or.inl ⟨_, rfl⟩
    · refine Or.inr ⟨?_, fun hi => by simp [hi]⟩
      rw [incrementIndex_eq]; rfl
  case loadRegs x =>
    unfold execLoadRegs at h
    split at h <;> cases h
    · exact Or.inl ⟨_, rfl⟩
    · refine Or.inr ⟨?_, fun hi => by simp [hi]⟩
      rw [incrementIndex_eq, loadFrom_eq]; rfl
  all_goals (cases h; exact Or.inr rfl)

/-- No instruction writes the latch, the boot order, the parameters or the host's list. -/
theorem exec_keeps_host {i : Instr} {s t : State} (h : exec i s = .next t) :
    t.key = s.key ∧ t.boot = s.boot ∧ t.cfg = s.cfg ∧ t.pending = s.pending := by
  rcases exec_cases i s with ⟨k, hk⟩ | ⟨u, hu, -, hframe⟩
  · rw [hk] at h; cases h; exact ⟨rfl, rfl, rfl, rfl⟩
  · rw [hu] at h; cases h; exact hframe

/-! ## The CPU tick, the key event and the step -/

theorem cpuTick_keeps_key_cfg {s t : State} (h : cpuTick s = .next t) : t.key = s.key ∧ t.cfg = s.cfg := by
  rcases cpuTick_cases s with ⟨-, hc⟩ | ⟨-, ⟨k, -, hc⟩ | ⟨w, e, -, -, hc⟩ | ⟨w, i, -, -, hc⟩⟩ <;> rw [hc] at h
  case inr.inr.inr =>
    obtain ⟨hkey, -, hcfg, -⟩ := exec_keeps_host h
    exact ⟨hkey, hcfg⟩
  all_goals (cases h; exact ⟨rfl, rfl⟩)

/-- A CPU tick keeps the run state, or executes an FX0A (R35, R204). -/
theorem cpuTick_run {s t : State} (h : cpuTick s = .next t) :
    t.run = s.run ∨ executing s ∧ ∃ x, fetch s = .ok (encode (.ldVxK x)) ∧
      t = { s with run := .awaitingKey, waitReg := x } := by
  rcases cpuTick_cases s with ⟨-, hc⟩ | ⟨he, ⟨k, -, hc⟩ | ⟨w, e, -, -, hc⟩ | ⟨w, i, hf, hd, hc⟩⟩ <;> rw [hc] at h
  case inr.inr.inr =>
    rcases exec_run h with hrun | ⟨x, rfl, ht⟩
    · exact Or.inl hrun
    · exact Or.inr ⟨he, x, by rw [encode_of_decode hd]; exact hf, ht⟩
  all_goals (cases h; exact Or.inl rfl)

/-- What a key event can do: the latch alone, or also the completion of a pending wait (R207). -/
theorem keyEvent_cases (k : Key) (p : Bool) (s : State) :
    keyEvent k p s = { s with key := s.key.set k.val p k.isLt } ∨
      (s.fault = none ∧ s.run = .awaitingKey ∧ p = true ∧ s.key[k] = false) ∧
        keyEvent k p s = completeWait k { s with key := s.key.set k.val p k.isLt } := by
  by_cases h : s.fault = none ∧ s.run = .awaitingKey ∧ p = true ∧ s.key[k] = false
  · exact Or.inr ⟨h, keyEvent_completes h⟩
  · exact Or.inl (keyEvent_latch h)

@[simp] theorem keyEvent_key (k : Key) (p : Bool) (s : State) :
    (keyEvent k p s).key = s.key.set k.val p k.isLt := by
  rcases keyEvent_cases k p s with h | ⟨-, h⟩ <;> simp [h]

@[simp] theorem keyEvent_cfg (k : Key) (p : Bool) (s : State) : (keyEvent k p s).cfg = s.cfg := by
  rcases keyEvent_cases k p s with h | ⟨-, h⟩ <;> simp [h]

@[simp] theorem timerTick_run (s : State) : (timerTick s).run = s.run := by
  rcases timerTick_cases s with h | h <;> rw [h]

@[simp] theorem timerTick_key (s : State) : (timerTick s).key = s.key := by
  rcases timerTick_cases s with h | h <;> rw [h]

@[simp] theorem timerTick_cfg (s : State) : (timerTick s).cfg = s.cfg := by
  rcases timerTick_cases s with h | h <;> rw [h]

/-- A program load changes memory and the boot order only. -/
theorem loadProgram_eq (bytes : List Byte) (s : State) :
    (loadProgram bytes s).2 = { s with mem := (loadProgram bytes s).2.mem, boot := (loadProgram bytes s).2.boot } := by
  unfold loadProgram; split <;> rfl

/-- A step performs the head of the host's list, or a CPU tick when the list is empty (log 2). -/
theorem step_eq_perform (s : State) : step s = perform (s.pending.headD .cpuTick) (taken s) := by
  cases hp : s.pending with
  | nil => rw [step_cpuTick (Or.inr ⟨hp, rfl⟩), taken, hp]; rfl
  | cons tr rest => simp only [step, performNext, taken, hp, List.headD_cons, List.tail_cons]

/-- A transaction that answers a next state is a CPU tick, a key event, or one that touches neither the run state nor
the latch nor the parameters. -/
theorem perform_cases {tr : Transaction} {s t : State} (h : perform tr s = .next t) :
    (cpuTick s = .next t) ∨ (∃ k p, tr = .keyEvent k p ∧ t = keyEvent k p s) ∨
      t.run = s.run ∧ t.key = s.key ∧ t.cfg = s.cfg := by
  cases tr <;> simp only [perform] at h
  case cpuTick => exact Or.inl h
  case keyEvent k p => cases h; exact Or.inr (Or.inl ⟨k, p, rfl, rfl⟩)
  case timerTick => cases h; simp
  case loadFont =>
    split at h <;> cases h
    exact Or.inr (Or.inr ⟨rfl, rfl, rfl⟩)
  case loadProgram bytes =>
    split at h <;> cases h
    rw [loadProgram_eq]
    exact Or.inr (Or.inr ⟨rfl, rfl, rfl⟩)
  all_goals (cases h; exact Or.inr (Or.inr ⟨rfl, rfl, rfl⟩))

/-- A step that answers a next state is a CPU tick, the key event at the head of the host's list, or a transaction that
touches neither the run state nor the latch nor the parameters. -/
theorem step_cases_keyEvent {s t : State} (h : step s = .next t) :
    (cpuTick (taken s) = .next t) ∨
      (∃ k p rest, s.pending = .keyEvent k p :: rest ∧ t = keyEvent k p (taken s)) ∨
      t.run = s.run ∧ t.key = s.key ∧ t.cfg = s.cfg := by
  rw [step_eq_perform] at h
  rcases perform_cases h with hc | ⟨k, p, hk, ht⟩ | hframe
  · exact Or.inl hc
  · cases hp : s.pending with
    | nil => rw [hp] at hk; cases hk
    | cons tr rest => rw [hp] at hk; cases hk; exact Or.inr (Or.inl ⟨k, p, rest, rfl, ht⟩)
  · exact Or.inr (Or.inr hframe)

end Sys2Proof.Machine
end

section
/-! PROOFS. The status of the core hangs together in every state a step answers (10_state.md R35 to R37, 60_exceptions.md
R222, R223): the invariant transaction by transaction, then for the step. -/

namespace Sys2Proof.Machine

/-- The invariant reads the boot order, the run state, the fault record, `pc` and what the fetch gives, no more. -/
theorem StatusInv.of_same {s t : State} (hs : StatusInv s) (hboot : t.boot = s.boot) (hrun : t.run = s.run)
    (hwait : t.waitReg = s.waitReg) (hfault : t.fault = s.fault) (hpc : t.pc = s.pc) (hfetch : fetch t = fetch s) :
    StatusInv t where
  notStarted := by rw [hboot, hrun, hfault]; exact hs.notStarted
  waiting := by rw [hrun, hfault, hfetch, hwait]; exact hs.waiting
  recorded := by rw [hfault, hrun, hpc, hfetch]; exact hs.recorded

theorem StatusInv.of_running {s : State} (hrun : s.run = .running) (hfault : s.fault = none) : StatusInv s where
  notStarted _ := ⟨hrun, hfault⟩
  waiting hw := by rw [hrun] at hw; cases hw
  recorded r hr := by rw [hfault] at hr; cases hr

theorem StatusInv.taken {s : State} (hs : StatusInv s) : StatusInv (taken s) :=
  hs.of_same rfl rfl rfl rfl rfl rfl

/-- The record of a fault names `pc` and what the fetch there gives, an error or the word (R222). -/
theorem StatusInv.recordFault {s : State} {k : FaultKind} {word : Option Word} (he : executing s)
    (hf : (word = none ∧ fetch s = .error k) ∨ ∃ w, word = some w ∧ fetch s = .ok w) :
    StatusInv (recordFault k word s) := by
  obtain ⟨hboot, -, hrun⟩ := he
  refine ⟨fun hb => absurd hboot hb, fun hw => ?_, fun r hr => ?_⟩
  · cases hrun.symm.trans hw
  · cases hr
    rcases hf with ⟨rfl, hf⟩ | ⟨w, rfl, hf⟩ <;> exact ⟨hrun, rfl, hf⟩

/-- The instruction fetched at `pc` keeps the invariant: its fault records its own word, and FX0A waits at itself. -/
theorem StatusInv.exec {i : Instr} {s t : State} (he : executing s) (hf : fetch s = .ok (encode i))
    (h : exec i s = .next t) : StatusInv t := by
  obtain ⟨hboot, hfault, hrun⟩ := he
  rcases exec_cases i s with ⟨k, hk⟩ | ⟨u, hu, hsame, -⟩
  · rw [hk] at h; cases h
    exact .recordFault ⟨hboot, hfault, hrun⟩ (Or.inr ⟨_, rfl, hf⟩)
  · rw [hu] at h; cases h
    rcases exec_run hu with hkept | ⟨x, rfl, rfl⟩
    · exact .of_running (hkept.trans hrun) (hsame.trans hfault)
    · exact ⟨fun hb => absurd hboot hb, fun _ => ⟨hfault, hf⟩, fun r hr => by cases hfault.symm.trans hr⟩

theorem StatusInv.cpuTick {s t : State} (hs : StatusInv s) (h : cpuTick s = .next t) : StatusInv t := by
  rcases cpuTick_cases s with ⟨-, hc⟩ | ⟨he, ⟨k, hf, hc⟩ | ⟨w, e, hf, -, hc⟩ | ⟨w, i, hf, hd, hc⟩⟩ <;> rw [hc] at h
  · cases h; exact hs
  · cases h; exact .recordFault he (Or.inl ⟨rfl, hf⟩)
  · cases h; exact .recordFault he (Or.inr ⟨w, rfl, hf⟩)
  · exact .exec he (by rw [encode_of_decode hd]; exact hf) h

theorem StatusInv.timerTick {s : State} (hs : StatusInv s) : StatusInv (timerTick s) := by
  rcases timerTick_cases s with h | h <;> rw [h]
  · exact hs
  · exact hs.of_same rfl rfl rfl rfl rfl rfl

theorem StatusInv.keyEvent {s : State} (hs : StatusInv s) (k : Key) (p : Bool) : StatusInv (keyEvent k p s) := by
  rcases keyEvent_cases k p s with h | ⟨⟨hfault, -⟩, h⟩ <;> rw [h]
  · exact hs.of_same rfl rfl rfl rfl rfl rfl
  · exact .of_running rfl hfault

/-- A load happens before the start, where the core is Running with no fault (R265), and changes neither. -/
theorem StatusInv.loadFont {s : State} (hs : StatusInv s) (hb : s.boot = .afterReset) : StatusInv (loadFont s) := by
  obtain ⟨hrun, hfault⟩ := hs.notStarted (by rw [hb]; decide)
  exact .of_running hrun hfault

theorem StatusInv.loadProgram {s : State} (hs : StatusInv s) (hb : s.boot = .fontLoaded) (bytes : List Byte) :
    StatusInv (loadProgram bytes s).2 := by
  obtain ⟨hrun, hfault⟩ := hs.notStarted (by rw [hb]; decide)
  rw [loadProgram_eq]
  exact .of_running hrun hfault

end Sys2Proof.Machine

open Sys2Proof Sys2Proof.Machine

/-- Settles O49, transaction by transaction. -/
theorem stepKeepsStatusConsistent : Obligations.StepKeepsStatusConsistent := by
  intro s t hs h
  rcases step_cases h with hc | rfl | ⟨k, p, rfl⟩ | ⟨hb, rfl⟩ | ⟨hb, bytes, rfl⟩ | rfl
  · exact hs.taken.cpuTick hc
  · exact hs.taken.timerTick
  · exact hs.taken.keyEvent k p
  · exact hs.taken.loadFont hb
  · exact hs.taken.loadProgram hb bytes
  · exact hs.taken

end

section
/-! PROOFS. Who changes what (10_state.md R21 to R34, R40): each statement from the fields an instruction may write. -/

open Sys2Proof Sys2Proof.Machine

/-- Settles O51: the stack is among the fields of CALL, `sp` among those of CALL and RET. -/
theorem onlyCallAndReturnTouchTheStack : Obligations.OnlyCallAndReturnTouchTheStack := by
  intro i s t h hcall
  rcases exec_writesOnly h with ⟨k, rfl⟩ | hw
  · exact ⟨rfl, fun _ => rfl⟩
  cases i <;> simp only [writesOnly] at hw
  case call nnn => exact absurd rfl (hcall nnn)
  case ret => rw [hw]; exact ⟨rfl, fun hret => absurd rfl hret⟩
  case storeRegs | loadRegs =>
    obtain ⟨ht, -⟩ := hw
    rw [ht]; exact ⟨rfl, fun _ => rfl⟩
  all_goals (rw [hw]; exact ⟨rfl, fun _ => rfl⟩)

/-- Settles O52: the display is among the fields of CLS and DRW, and no instruction writes the host's part. -/
theorem onlyDisplayInstructionsTouchTheDisplay : Obligations.OnlyDisplayInstructionsTouchTheDisplay := by
  intro i s t h
  refine ⟨fun hcls hdrw => ?_, exec_keeps_host h⟩
  rcases exec_writesOnly h with ⟨k, rfl⟩ | hw
  · rfl
  cases i <;> simp only [writesOnly] at hw
  case cls => exact absurd rfl hcls
  case drw x y n => exact absurd rfl (hdrw x y n)
  case storeRegs | loadRegs => obtain ⟨ht, -⟩ := hw; rw [ht]
  all_goals rw [hw]

/-- Settles O53: I, `dt`, `st` and the random input are each among the fields of the instructions listed for it; FX55
and FX65 leave I where `LS_INCREMENT_I` is false. -/
theorem onlyTheirWritersTouchIndexAndTimers : Obligations.OnlyTheirWritersTouchIndexAndTimers := by
  intro i s t h
  rcases exec_writesOnly h with ⟨k, rfl⟩ | hw
  · exact ⟨fun _ _ _ _ => rfl, fun _ => rfl, fun _ => rfl, fun _ => ⟨rfl, rfl⟩⟩
  cases i <;> simp only [writesOnly] at hw
  case ldI nnn => rw [hw]; exact ⟨fun hi => absurd rfl (hi nnn), fun _ => rfl, fun _ => rfl, fun _ => ⟨rfl, rfl⟩⟩
  case addI x => rw [hw]; exact ⟨fun _ hi => absurd rfl (hi x), fun _ => rfl, fun _ => rfl, fun _ => ⟨rfl, rfl⟩⟩
  case ldF x => rw [hw]; exact ⟨fun _ _ hi => absurd rfl (hi x), fun _ => rfl, fun _ => rfl, fun _ => ⟨rfl, rfl⟩⟩
  case storeRegs x =>
    obtain ⟨ht, hindex⟩ := hw
    refine ⟨fun _ _ _ hi => hindex (hi.resolve_right fun hno => hno.1 x rfl), ?_⟩
    rw [ht]; exact ⟨fun _ => rfl, fun _ => rfl, fun _ => ⟨rfl, rfl⟩⟩
  case loadRegs x =>
    obtain ⟨ht, hindex⟩ := hw
    refine ⟨fun _ _ _ hi => hindex (hi.resolve_right fun hno => hno.2 x rfl), ?_⟩
    rw [ht]; exact ⟨fun _ => rfl, fun _ => rfl, fun _ => ⟨rfl, rfl⟩⟩
  case ldDtVx x => rw [hw]; exact ⟨fun _ _ _ _ => rfl, fun hd => absurd rfl (hd x), fun _ => rfl, fun _ => ⟨rfl, rfl⟩⟩
  case ldStVx x => rw [hw]; exact ⟨fun _ _ _ _ => rfl, fun _ => rfl, fun hs => absurd rfl (hs x), fun _ => ⟨rfl, rfl⟩⟩
  case rnd x nn => rw [hw]; exact ⟨fun _ _ _ _ => rfl, fun _ => rfl, fun _ => rfl, fun hr => absurd rfl (hr x nn)⟩
  all_goals (rw [hw]; exact ⟨fun _ _ _ _ => rfl, fun _ => rfl, fun _ => rfl, fun _ => ⟨rfl, rfl⟩⟩)

/-- FX65 loads V0 to VX, so a register above VX is as it was. -/
theorem exec_loadRegs_above {x r : Reg} {s t : State} (h : exec (.loadRegs x) s = .next t) (hr : ¬ r ≤ x) :
    t.v[r] = s.v[r] := by
  simp only [exec, execLoadRegs] at h
  rcases dataBlock_cases s .read (x.val + 1) with ⟨-, hb⟩ | ⟨_, -, -, -, hb⟩ <;> rw [hb] at h <;> cases h
  · have hl : (readAll s ((List.range (x.val + 1)).map (blockAddr s))).length = x.val + 1 := by simp [readAll]
    have hlt : x.val < r.val := not_le.mp hr
    show (incrementIndex x _).v[r] = s.v[r]
    rw [incrementIndex_v, getElem_loadFrom _ _ _ (by omega), dif_neg (by omega)]
  · rfl

/-- Settles O54: a register outside those listed is not the one that the instruction's register write names; the other
instructions have no register among their fields. -/
theorem registersChangeOnlyAsListed : Obligations.RegistersChangeOnlyAsListed := by
  intro i s t r h hr
  cases i
  case loadRegs x => exact exec_loadRegs_above h hr
  case drw x y n =>
    simp only [exec, execDrw] at h
    split at h <;> cases h
    · rfl
    · exact getElem_setV_ne hr _ _
  case ldImm | addImm | ldReg | orReg | andReg | xorReg | rnd | ldVxDt => cases h; exact getElem_setV_ne hr _ _
  case addReg | subReg | shr | subnReg | shl =>
    obtain ⟨hx, hf⟩ := not_or.mp hr
    cases h; exact writeFlagged_other hx hf _ _ s
  all_goals
    rcases exec_writesOnly h with ⟨k, rfl⟩ | hw
    · rfl
  case storeRegs => obtain ⟨ht, -⟩ := hw; rw [ht]
  all_goals (simp only [writesOnly] at hw; rw [hw])

end

section
/-! PROOFS. The key wait and the latch (10_state.md R34, R35), and what the host reads (R32, R33, R36 to R38). -/

open Sys2Proof Sys2Proof.Machine

/-- Settles O56: only a CPU tick can enter the wait and only a key event can leave it. -/
theorem keyWaitIsEnteredAndLeftAsStated : Obligations.KeyWaitIsEnteredAndLeftAsStated := by
  refine ⟨rfl, fun s t hrun h ht => ?_, fun s t hrun h ht => ?_⟩
  · have hne : t.run ≠ s.run := by rw [hrun, ht]; decide
    rcases step_cases_keyEvent h with hc | ⟨k, p, rest, -, rfl⟩ | ⟨hkept, -⟩
    · rcases cpuTick_run hc with hkept | ⟨he, x, hf, htaken⟩
      · exact absurd hkept hne
      · exact ⟨he, x, hf, htaken⟩
    · rcases keyEvent_cases k p (taken s) with he | ⟨⟨-, hwait, -⟩, -⟩
      · exact absurd (congrArg State.run he) hne
      · cases hrun.symm.trans hwait
    · exact absurd hkept hne
  · have hne : t.run ≠ s.run := by rw [hrun, ht]; decide
    rcases step_cases_keyEvent h with hc | ⟨k, p, rest, hp, rfl⟩ | ⟨hkept, -⟩
    · rcases cpuTick_run hc with hkept | ⟨⟨-, -, hrunning⟩, -⟩
      · exact absurd hkept hne
      · cases hrun.symm.trans hrunning
    · rcases keyEvent_cases k p (taken s) with he | ⟨⟨hfault, -, rfl, hup⟩, -⟩
      · exact absurd (congrArg State.run he) hne
      · exact ⟨hfault, k, rest, hp, hup⟩
    · exact absurd hkept hne

/-- Settles O57: no CPU tick and no other transaction writes the latch, and a key event sets one bit of it. -/
theorem latchChangesOnlyByKeyEvents : Obligations.LatchChangesOnlyByKeyEvents := by
  intro s t h
  rcases step_cases_keyEvent h with hc | ⟨k, p, rest, hp, rfl⟩ | ⟨-, hkey, hcfg⟩
  · obtain ⟨hkey, hcfg⟩ := cpuTick_keeps_key_cfg hc
    exact ⟨hcfg, Or.inl hkey⟩
  · refine ⟨keyEvent_cfg .., Or.inr ⟨k, p, rest, hp, ?_, fun j hj => ?_⟩⟩
    · simp
    · have hne : k.val ≠ j.val := fun he => hj (Fin.ext he).symm
      simp [hne, taken]
  · exact ⟨hcfg, Or.inl hkey⟩

/-- Settles O58, by the rows of the buffer laid one after the other. -/
theorem displayReadIsRowMajor : Obligations.DisplayReadIsRowMajor := by
  intro s
  refine ⟨by simp only [displayRead, rows_length, Vector.length_toList], fun x y => ?_, fun tr htr => ?_⟩
  · have hrow := rows_getElem s.disp.toList y.val x.val (by simp) x.isLt
    simpa [displayRead, Display.pixel] using hrow
  · simp only [List.mem_cons, List.not_mem_nil, or_false] at htr
    rcases htr with rfl | rfl | rfl <;> rfl

/-- Settles O59, field by field. -/
theorem toneAndStatusFollowTheState : Obligations.ToneAndStatusFollowTheState := by
  refine ⟨fun s => ⟨?_, rfl, ?_, fun hw => ?_, fun hr => ?_, ?_, fun r hf => ?_, fun hf => ?_⟩, rfl, rfl⟩
  · simp [toneOutput]
  · cases hrun : s.run <;> simp [statusRead, hrun]
  · have hreg : BitVec.ofNat 4 s.waitReg.val = BitVec.ofFin s.waitReg := BitVec.eq_of_toNat_eq (by simp)
    simp [statusRead, hw, hreg]
  · simp [statusRead, hr]
  · cases hf : s.fault <;> simp [statusRead, hf]
  · refine ⟨?_, ?_, ?_, fun hnone => ?_, fun w hsome => ?_⟩
    · simp [statusRead, hf]
    · simp [statusRead, hf]
    · simp [statusRead, hf]
    · simp [statusRead, hf, hnone]
    · simp [statusRead, hf, hsome]
  · simp [statusRead, hf]

end

section
/-! PROOFS. Memory (20_memory.md R60 to R68, R73): the canonical form transaction by transaction, the bytes an
instruction stores, and the fetch of a word that FX55 stored. -/

namespace Sys2Proof.Machine

/-! ## The canonical form is kept (R60, R62) -/

/-- The addresses of a block have passed their checks, so they lie inside memory. -/
theorem wf_storeBlock {s : State} (hwf : Memory.wf s.mem = true) (n : Nat) (bs : List Byte) :
    Memory.wf (Memory.writeList s.mem ((List.range n).map (blockAddr s)) bs) = true := by
  refine Memory.wf_writeList hwf fun a ha => ?_
  obtain ⟨k, -, rfl⟩ := List.mem_map.mp ha
  exact blockAddr_lt s k

theorem exec_wf {i : Instr} {s t : State} (hwf : Memory.wf s.mem = true) (h : exec i s = .next t) :
    Memory.wf t.mem = true := by
  rcases exec_mem h with hm | ⟨n, bs, hm⟩ <;> rw [hm]
  · exact hwf
  · exact wf_storeBlock hwf n bs

theorem cpuTick_wf {s t : State} (hwf : Memory.wf s.mem = true) (h : cpuTick s = .next t) :
    Memory.wf t.mem = true := by
  rcases cpuTick_cases s with ⟨-, hc⟩ | ⟨-, ⟨k, -, hc⟩ | ⟨w, e, -, -, hc⟩ | ⟨w, i, -, -, hc⟩⟩ <;> rw [hc] at h
  case inr.inr.inr => exact exec_wf hwf h
  all_goals (cases h; exact hwf)

@[simp] theorem timerTick_mem (s : State) : (timerTick s).mem = s.mem := by
  rcases timerTick_cases s with h | h <;> rw [h]

@[simp] theorem keyEvent_mem (k : Key) (p : Bool) (s : State) : (keyEvent k p s).mem = s.mem := by
  rcases keyEvent_cases k p s with h | ⟨-, h⟩
  · rw [h]
  · rw [h, completeWait_mem]

/-- The font ends at 0x09F (R263). -/
theorem loadFont_wf {s : State} (hwf : Memory.wf s.mem = true) : Memory.wf (loadFont s).mem = true :=
  Memory.wf_writeBlock hwf (by rw [fontBytes_length]; decide)

/-- A program that is copied ends inside memory, and one that does not fit is not copied (R264). -/
theorem loadProgram_wf {s : State} (hwf : Memory.wf s.mem = true) (bytes : List Byte) :
    Memory.wf (loadProgram bytes s).2.mem = true := by
  rcases Nat.lt_or_ge progMax bytes.length with hlarge | hfits
  · rw [loadProgram_tooLarge s hlarge]
    exact hwf
  · rw [loadProgram_ok s hfits]
    exact Memory.wf_writeBlock hwf (Nat.add_le_add_left hfits progBase)

/-! ## What an instruction stores (R68, R164, R165) -/

/-- The memory after an instruction: unchanged, or its own number of bytes stored from I on. -/
theorem exec_stores {i : Instr} {s t : State} (h : exec i s = .next t) :
    t.mem = s.mem ∨
      ∃ bs, t.mem = Memory.writeList s.mem ((List.range (storeCount i)).map (blockAddr s)) bs := by
  cases i
  case ldB x =>
    simp only [exec, execLdB] at h
    rcases dataBlock_cases s .write 3 with ⟨-, hb⟩ | ⟨_, -, -, -, hb⟩ <;> rw [hb] at h <;> cases h
    · exact Or.inr ⟨_, rfl⟩
    · exact Or.inl rfl
  case storeRegs x =>
    simp only [exec, execStoreRegs] at h
    rcases dataBlock_cases s .write (x.val + 1) with ⟨-, hb⟩ | ⟨_, -, -, -, hb⟩ <;> rw [hb] at h <;> cases h
    · exact Or.inr ⟨_, incrementIndex_mem ..⟩
    · exact Or.inl rfl
  all_goals
    rcases exec_writesOnly h with ⟨k, rfl⟩ | hw
    · exact Or.inl rfl
  case loadRegs => obtain ⟨ht, -⟩ := hw; rw [ht]; exact Or.inl rfl
  all_goals (simp only [writesOnly] at hw; rw [hw]; exact Or.inl rfl)

theorem exec_storeRegs_ok {x : Reg} {s : State} (hb : blockAllowed s .write (x.val + 1)) :
    exec (.storeRegs x) s = .next (advance2 (incrementIndex x
      (storeAll ((List.range (x.val + 1)).map (blockAddr s)) (firstRegs s (x.val + 1)) s))) := by
  simp only [exec, execStoreRegs, dataBlock_ok hb]

/-- FX55 at addresses that may be written puts V[k] at I + k, for every k up to X (R165). -/
theorem exec_storeRegs_reads {x : Reg} {s : State} (hwf : Memory.wf s.mem = true)
    (hb : blockAllowed s .write (x.val + 1)) :
    ∃ t, exec (.storeRegs x) s = .next t ∧
      ∀ k (hk : k < x.val + 1), Memory.read t.mem (blockAddr s k) = s.v[k]'(by omega) := by
  have hx : x.val + 1 ≤ 16 := x.isLt
  refine ⟨_, exec_storeRegs_ok hb, fun k hk => ?_⟩
  rw [advance2_mem, incrementIndex_mem, storeAll_mem, read_storeBlock hwf hx (firstRegs_length s hx) hk]
  exact getElem_firstRegs s hx hk

/-! ## The address checks (R64, R65) -/

/-- R65 is not asked for a read. -/
theorem allowed_read {cfg : Config} {a : Nat} (h : inRange cfg a) : allowed cfg .read a := ⟨h, nofun⟩

theorem checkAddr_outOfRange {cfg : Config} {a : Nat} (ha : a > 0xFFF) (hp : cfg.addrPolicy = .fault) (acc : Access) :
    checkAddr cfg acc a = .error .addressOutOfRange := by
  have hn : ¬ allowed cfg acc a := by
    rintro ⟨hle | hmask, -⟩
    · omega
    · cases hp.symm.trans hmask
  rw [checkAddr_error hn, addrFault, if_pos ⟨ha, hp⟩]

/-- A read that passes its check is in range and gives the byte that the address names. -/
theorem checkAddr_read_ok {cfg : Config} {a a' : Nat} (h : checkAddr cfg .read a = .ok a') :
    inRange cfg a ∧ a' = byteAddr a := by
  by_cases hr : inRange cfg a
  · rw [checkAddr_ok (allowed_read hr)] at h
    cases h; exact ⟨hr, rfl⟩
  · rw [checkAddr_error fun ⟨hr', _⟩ => hr hr'] at h
    cases h

theorem checkAddr_write_reserved {cfg : Config} {a : Nat} (hr : inRange cfg a) (ha : byteAddr a ≤ 0x1FF)
    (hp : cfg.reservedWritePolicy = .fault) : checkAddr cfg .write a = .error .reservedWrite := by
  have hn : ¬ mayWrite cfg a := by
    rintro (hgt | hallow)
    · omega
    · cases hp.symm.trans hallow
  unfold checkAddr
  rw [checkRange_ok hr]
  exact checkReserved_error hn

/-! ## The fetch and its checks (R63) -/

/-- A fetch that fails is recorded with no word (R222). -/
theorem perform_cpuTick_fetchError {s : State} {k : FaultKind} (he : executing s) (hf : fetch s = .error k) :
    perform .cpuTick s = .next (recordFault k none s) := by
  show cpuTick s = _
  rcases cpuTick_cases s with ⟨hn, -⟩ | ⟨-, ⟨k', hf', hc⟩ | ⟨w, e, hf', -⟩ | ⟨w, i, hf', -⟩⟩
  · exact absurd he hn
  · cases hf.symm.trans hf'; exact hc
  · cases hf.symm.trans hf'
  · cases hf.symm.trans hf'

end Sys2Proof.Machine

open Sys2Proof Sys2Proof.Machine

/-- Settles O48, transaction by transaction. -/
theorem stepKeepsMemoryCanonical : Obligations.StepKeepsMemoryCanonical := by
  intro s t hwf h
  have htaken : Memory.wf (taken s).mem = true := hwf
  rcases step_cases h with hc | rfl | ⟨k, p, rfl⟩ | ⟨-, rfl⟩ | ⟨-, bytes, rfl⟩ | rfl
  · exact cpuTick_wf htaken hc
  · rw [timerTick_mem]; exact htaken
  · rw [keyEvent_mem]; exact htaken
  · exact loadFont_wf htaken
  · exact loadProgram_wf htaken bytes
  · exact htaken

/-- Settles O31: the two addresses the fetch reads are those of offsets `k` and `k + 1` of the stored block. -/
theorem storedWordIsFetched : Obligations.StoredWordIsFetched := by
  intro x s k hwf hb hk
  obtain ⟨t, ht, hread⟩ := exec_storeRegs_reads hwf hb
  refine ⟨t, ht, fun u hmem hcfg hpc halign hrange => ?_⟩
  rw [fetch_ok halign hrange, hmem, hpc, Nat.add_assoc]
  exact congrArg Except.ok (congrArg₂ wordOfBytes (hread k (by omega)) (hread (k + 1) (by omega)))

/-- Settles O55: a byte outside the block that the instruction stores reads as before. -/
theorem memoryChangesOnlyWhereStored : Obligations.MemoryChangesOnlyWhereStored := by
  intro i s t a h ha
  rcases exec_stores h with hm | ⟨bs, hm⟩ <;> rw [hm]
  exact read_storeBlock_other ha

/-- Settles O7, check by check. -/
theorem fetchChecksThenReadsBigEndian : Obligations.FetchChecksThenReadsBigEndian := by
  refine fun s => ⟨fun halign hodd => ?_, fun halign haddr hpc => ?_, fun halign hrange => ?_⟩
  · have hf := fetch_misaligned halign hodd
    exact ⟨hf, fun he => perform_cpuTick_fetchError he hf⟩
  · have hf := fetch_outOfRange halign haddr hpc
    exact ⟨hf, fun he => perform_cpuTick_fetchError he hf⟩
  · exact ⟨_, fetch_ok halign hrange, wordOfBytes_toNat ..⟩

/-- Settles O26: an address that passes R64 is the byte it names, and R65 looks at that byte. -/
theorem addressChecksFollowThePolicies : Obligations.AddressChecksFollowThePolicies := by
  refine fun cfg a => ⟨fun ha => ?_, fun ha hp acc => checkAddr_outOfRange ha hp acc, fun _ hmask => ?_,
    fun a' hread => ?_⟩
  · rw [checkAddr_ok (allowed_read (Or.inl ha)), byteAddr_of_le ha]
  · exact checkAddr_ok (allowed_read (Or.inr hmask))
  · obtain ⟨hr, rfl⟩ := checkAddr_read_ok hread
    exact ⟨checkAddr_write_reserved hr, fun hw => checkAddr_ok ⟨hr, fun _ => hw⟩⟩

end

section
/-! PROOFS. The round trip between instructions and words (30_encoding.md R84, R85), the row each word decodes to (R85),
and the words of no row (R87). -/

namespace Sys2Proof

/-! ## Decoding what was encoded -/

/-- Only SYS 0E0 and SYS 0EE have no word of their own (R85 row 1). -/
theorem not_wellFormed_iff {i : Instr} : ¬ wellFormed i = true ↔ i = .sys 0x0E0 ∨ i = .sys 0x0EE := by
  cases i
  case sys nnn => simp [wellFormed, sysOperandOk, Classical.or_iff_not_imp_left]
  all_goals simp [wellFormed]

/-- A word of family 0 other than 00E0 and 00EE is SYS with its low 12 bits. -/
theorem decode_formatNNN_zero {nnn : Addr12} (h : wellFormed (.sys nnn) = true) :
    decode (formatNNN 0x0 nnn) = .ok (.sys nnn) := by
  have hop : (fieldOp (formatNNN 0x0 nnn)).toNat = 0x0 := fieldOp_formatNNN (by decide) nnn
  have hnnn : fieldNNN (formatNNN 0x0 nnn) = nnn := fieldNNN_formatNNN (by decide) nnn
  have hne (w : Word) (hw : wellFormed (.sys (fieldNNN w)) = false) : formatNNN 0x0 nnn ≠ w := by
    rintro rfl
    rw [hnnn, h] at hw
    cases hw
  simp only [decode, hop, decode0, if_neg (hne 0x00E0 rfl), if_neg (hne 0x00EE rfl), hnnn]

/-- Format by format: the decoder reads the family nibble, the fixed low digits and the operands of an encoded word. -/
theorem decode_encode {i : Instr} (h : wellFormed i = true) : decode (encode i) = .ok i := by
  cases i
  case sys nnn => exact decode_formatNNN_zero h
  case cls | ret => rfl
  case jp | call | ldI | jpV0 => simp [encode, decode, fieldOp_formatNNN, fieldNNN_formatNNN]
  case seImm | sneImm | ldImm | addImm | rnd =>
    simp [encode, decode, fieldOp_formatXNN, fieldX_formatXNN, fieldNN_formatXNN]
  case seReg | sneReg | drw =>
    simp [encode, decode, fieldOp_formatXYN, fieldX_formatXYN, fieldY_formatXYN, fieldN_formatXYN]
  case ldReg | orReg | andReg | xorReg | addReg | subReg | shr | subnReg | shl =>
    simp [encode, decode, decode8, fieldOp_formatXYN, fieldX_formatXYN, fieldY_formatXYN, fieldN_formatXYN]
  case skp | sknp => simp [encode, decode, decodeE, fieldOp_formatXNN, fieldX_formatXNN, fieldNN_formatXNN]
  case ldVxDt | ldVxK | ldDtVx | ldStVx | addI | ldF | ldB | storeRegs | loadRegs =>
    simp [encode, decode, decodeF, fieldOp_formatXNN, fieldX_formatXNN, fieldNN_formatXNN]

theorem decodeBytes_encodeBytes {i : Instr} (h : wellFormed i = true) (rest : List Byte) :
    decodeBytes (encodeBytes i ++ rest) = .ok (i, rest) := by
  simp only [encodeBytes, List.cons_append, List.nil_append, decodeBytes, wordOfBytes_bytes, decode_encode h]

/-- The two ill-formed instructions are never decoded: their words are those of CLS and RET. -/
theorem wellFormed_of_decode {w : Word} {i : Instr} (h : decode w = .ok i) : wellFormed i = true := by
  by_contra hill
  obtain rfl := encode_of_decode h
  rcases not_wellFormed_iff.mp hill with rfl | rfl <;> exact absurd h (by decide)

/-! ## The row of a word (R85) -/

theorem encode_matchesRow (i : Instr) : (opcodeRow i).matchesWord (encode i) = true := by
  cases i
  case cls | ret => rfl
  case sys | jp | call | ldI | jpV0 => exact Laws.RowMatch.of_formatNNN (by decide) _ rfl
  case seImm | sneImm | ldImm | addImm | rnd => exact Laws.RowMatch.of_formatXNN (by decide) _ _ rfl
  case drw => exact Laws.RowMatch.of_formatXYN (by decide) _ _ _ rfl
  case seReg | sneReg | ldReg | orReg | andReg | xorReg | addReg | subReg | shr | subnReg | shl =>
    exact Laws.RowMatch.of_formatXY (by decide) _ _ _ rfl
  case skp | sknp | ldVxDt | ldVxK | ldDtVx | ldStVx | addI | ldF | ldB | storeRegs | loadRegs =>
    exact Laws.RowMatch.of_formatX (by decide) _ _ rfl

theorem fieldOp_of_matches_F000 {v w : Word} (h : (OpcodeRow.mk v 0xF000).matchesWord w = true) :
    (fieldOp w).toNat = v.toNat / 0x1000 := by
  rw [matchesWord_iff, and_F000] at h
  rw [fieldOp_toNat, ← h]
  omega

theorem fields_of_matches_F00F {v w : Word} (h : (OpcodeRow.mk v 0xF00F).matchesWord w = true) :
    (fieldOp w).toNat = v.toNat / 0x1000 ∧ (fieldN w).toNat = v.toNat % 0x10 := by
  rw [matchesWord_iff, and_F00F] at h
  rw [fieldOp_toNat, fieldN_toNat, ← h]
  omega

theorem fields_of_matches_F0FF {v w : Word} (h : (OpcodeRow.mk v 0xF0FF).matchesWord w = true) :
    (fieldOp w).toNat = v.toNat / 0x1000 ∧ (fieldNN w).toNat = v.toNat % 0x100 := by
  rw [matchesWord_iff, and_F0FF] at h
  rw [fieldOp_toNat, fieldNN_toNat, ← h]
  omega

/-- Mask by mask: the digits a row fixes are those the decoder selects by; SYS's row gives way to CLS and RET. -/
theorem decode_of_matchesRow {w : Word} {j : Instr} (h : (opcodeRow j).matchesWord w = true) :
    ∃ i, decode w = .ok i ∧
      (opcodeRow i = opcodeRow j ∨ (opcodeRow j = ⟨0x0000, 0xF000⟩ ∧ (i = .cls ∨ i = .ret))) := by
  cases j
  case sys nnn =>
    have hop := fieldOp_of_matches_F000 h
    refine ⟨decode0 w, by simp [decode, hop], ?_⟩
    unfold decode0
    split_ifs
    · exact Or.inr ⟨rfl, Or.inl rfl⟩
    · exact Or.inr ⟨rfl, Or.inr rfl⟩
    · exact Or.inl rfl
  case cls | ret =>
    rw [matchesWord_iff] at h
    obtain rfl := BitVec.eq_of_toNat_eq ((congrArg BitVec.toNat (and_FFFF w)).symm.trans h)
    exact ⟨_, rfl, Or.inl rfl⟩
  case jp | call | seImm | sneImm | ldImm | addImm | ldI | jpV0 | rnd | drw =>
    have hop := fieldOp_of_matches_F000 h
    simp [decode, hop, opcodeRow]
  case seReg | sneReg =>
    obtain ⟨hop, hn⟩ := fields_of_matches_F00F h
    have hzero : fieldN w = 0 := BitVec.eq_of_toNat_eq hn
    simp [decode, hop, hzero, opcodeRow]
  case ldReg | orReg | andReg | xorReg | addReg | subReg | shr | subnReg | shl =>
    obtain ⟨hop, hn⟩ := fields_of_matches_F00F h
    simp [decode, hop, decode8, hn, opcodeRow]
  case skp | sknp =>
    obtain ⟨hop, hnn⟩ := fields_of_matches_F0FF h
    simp [decode, hop, decodeE, hnn, opcodeRow]
  case ldVxDt | ldVxK | ldDtVx | ldStVx | addI | ldF | ldB | storeRegs | loadRegs =>
    obtain ⟨hop, hnn⟩ := fields_of_matches_F0FF h
    simp [decode, hop, decodeF, hnn, opcodeRow]

/-! ## The words of no row (R87) -/

/-- The list of R87 reads the digits that the decoder selects by. -/
theorem illegalWord_iff {w : Word} : Machine.illegalWord w ↔
    (((fieldOp w).toNat = 0x5 ∨ (fieldOp w).toNat = 0x9) ∧ (fieldN w).toNat ≠ 0) ∨
      ((fieldOp w).toNat = 0x8 ∧ (fieldN w).toNat ∈ [0x8, 0x9, 0xA, 0xB, 0xC, 0xD, 0xF]) ∨
      ((fieldOp w).toNat = 0xE ∧ (fieldNN w).toNat ∉ [0x9E, 0xA1]) ∨
      ((fieldOp w).toNat = 0xF ∧ (fieldNN w).toNat ∉ [0x07, 0x0A, 0x15, 0x18, 0x1E, 0x29, 0x33, 0x55, 0x65]) := by
  rw [fieldOp_toNat, fieldN_toNat, fieldNN_toNat, Machine.illegalWord]

theorem decode8_error_iff {w : Word} : decode8 w = .error .unsupportedOpcode ↔
    (fieldN w).toNat ∈ [0x8, 0x9, 0xA, 0xB, 0xC, 0xD, 0xF] := by
  have hlt := (fieldN w).isLt
  unfold decode8
  split
  case h_10 =>
    simp only [imp_false, List.mem_cons, List.not_mem_nil, or_false, true_iff] at *
    omega
  all_goals simp [*]

theorem decodeE_error_iff {w : Word} : decodeE w = .error .unsupportedOpcode ↔
    (fieldNN w).toNat ∉ [0x9E, 0xA1] := by
  unfold decodeE
  split
  case h_3 =>
    simp only [imp_false] at *
    simp [*]
  all_goals simp [*]

theorem decodeF_error_iff {w : Word} : decodeF w = .error .unsupportedOpcode ↔
    (fieldNN w).toNat ∉ [0x07, 0x0A, 0x15, 0x18, 0x1E, 0x29, 0x33, 0x55, 0x65] := by
  unfold decodeF
  split
  case h_10 =>
    simp only [imp_false] at *
    simp [*]
  all_goals simp [*]

/-- Family by family (R86), the words the decoder rejects are those of R87. -/
theorem decode_error_iff {w : Word} : decode w = .error .unsupportedOpcode ↔ Machine.illegalWord w := by
  have hlt := (fieldOp w).isLt
  rw [illegalWord_iff]
  unfold decode
  split
  case h_6 hop | h_10 hop => simp [hop, BitVec.toNat_eq]
  case h_9 hop => simp [hop, decode8_error_iff]
  case h_15 hop => simp [hop, decodeE_error_iff]
  case h_16 hop => simp [hop, decodeF_error_iff]
  case h_17 =>
    simp only [imp_false] at *
    omega
  all_goals simp [*]

end Sys2Proof

namespace Sys2Proof.Machine

/-- An executing core that fetches a word of no row records that word and changes nothing else (R87, R222). -/
theorem cpuTick_undecoded {s : State} {w : Word} {e : DecodeError} (he : executing s) (hf : fetch s = .ok w)
    (hd : decode w = .error e) : cpuTick s = .next (recordFault .unsupportedOpcode (some w) s) := by
  obtain ⟨hboot, hfault, hrun⟩ := he
  simp only [cpuTick, hboot, hfault, hrun, fetchDecodeExecute, hf, hd, raise_eq]

end Sys2Proof.Machine

open Sys2Proof Sys2Proof.Machine

/-- Settles O1, for the word and for its two bytes. -/
theorem decodeEncodeRoundTrip : Obligations.DecodeEncodeRoundTrip :=
  fun _ rest h => ⟨decode_encode h, decodeBytes_encodeBytes h rest⟩

/-- Settles O2: only the words of CLS and RET could come from an ill-formed instruction. -/
theorem encodeDecodeRoundTrip : Obligations.EncodeDecodeRoundTrip :=
  fun _ _ h => ⟨wellFormed_of_decode h, encode_of_decode h⟩

/-- Settles O3: a decoded word is the word of its instruction, which matches its row. -/
theorem wordsDecodeToTheRowTheyMatch : Obligations.WordsDecodeToTheRowTheyMatch := by
  refine ⟨rfl, rfl, fun w i h => ?_, fun w j h => decode_of_matchesRow h⟩
  rw [← encode_of_decode h]
  exact encode_matchesRow i

/-- Settles O4: the decoder family by family, then the tick that fetches such a word. -/
theorem illegalWordsAreUnsupported : Obligations.IllegalWordsAreUnsupported :=
  ⟨fun _ => decode_error_iff, fun _ _ he hf hill => cpuTick_undecoded he hf (decode_error_iff.mpr hill)⟩

/-- Settles O5: each of the words is the encoding of its instruction. -/
theorem sampleWordsDecode : Obligations.SampleWordsDecode :=
  ⟨decode_encode (i := .cls) rfl, decode_encode (i := .call 0x210) rfl, decode_encode (i := .seImm 3 0x12) rfl,
    decode_encode (i := .subReg 1 2) rfl, decode_encode (i := .drw 1 2 5) rfl, decode_encode (i := .loadRegs 2) rfl,
    decode_encode (i := .sknp 5) rfl⟩

end

section
/-! PROOFS. The instruction cycle and the control transfers (40_control_flow.md): one lemma per outcome of SYS, the
jumps, CALL and RET, the skips as one update of `pc`, nested CALLs by induction, and the tick that runs what it fetched. -/

namespace Sys2Proof

/-- The word of SYS is its operand, since its family nibble is 0 (R85 row 1). -/
theorem encode_sys (nnn : Addr12) : encode (.sys nnn) = nnn.setWidth 16 := by
  apply BitVec.eq_of_toNat_eq
  rw [BitVec.toNat_setWidth_of_le (by decide), encode, formatNNN_toNat (by decide), Nat.zero_mul, Nat.zero_add]

theorem decode_of_decodeBytes {hi lo : Byte} {i : Instr} (h : decodeBytes [hi, lo] = .ok (i, [])) :
    decode (wordOfBytes hi lo) = .ok i := by
  simp only [decodeBytes] at h
  split at h
  · next hd => cases h; exact hd
  · cases h

end Sys2Proof

namespace Sys2Proof.Machine

/-! ## SYS and the jumps (R110, R112, R118) -/

theorem exec_sys_fault (nnn : Addr12) {s : State} (h : s.cfg.sysPolicy = .fault) :
    exec (.sys nnn) s = .next (recordFault .unsupportedOpcode (some (encode (.sys nnn))) s) := by
  simp only [exec, execSys, h, raise_eq]

theorem exec_sys_nop (nnn : Addr12) {s : State} (h : s.cfg.sysPolicy = .nop) :
    exec (.sys nnn) s = .next (advance2 s) := by
  simp only [exec, execSys, h]

@[simp] theorem zextAddr_toNat (nnn : Addr12) : (zextAddr nnn).toNat = nnn.toNat :=
  BitVec.toNat_setWidth_of_le (by decide)

@[simp] theorem zextByte_toNat (b : Byte) : (zextByte b).toNat = b.toNat :=
  BitVec.toNat_setWidth_of_le (by decide)

/-- NNN + V0 is at most 0x10FE, so the sum does not wrap. -/
theorem zextAddr_add_zextByte_toNat (nnn : Addr12) (b : Byte) :
    (zextAddr nnn + zextByte b).toNat = nnn.toNat + b.toNat := by
  have := nnn.isLt
  have := b.isLt
  rw [BitVec.toNat_add, zextAddr_toNat, zextByte_toNat]
  omega

/-! ## CALL and RET (R111, R113) -/

theorem exec_call_ok (nnn : Addr12) {s : State} (h : s.sp.val < 16) :
    exec (.call nnn) s = .next { s with
      pc := zextAddr nnn, sp := ⟨s.sp.val + 1, by omega⟩, stack := s.stack.set s.sp.val (s.pc + 2) h } := by
  simp only [exec, execCall, pushReturn_ok h, jumpTo]

theorem exec_call_full (nnn : Addr12) {s : State} (h : s.sp.val = 16) :
    exec (.call nnn) s = .next (recordFault .stackOverflow (some (encode (.call nnn))) s) := by
  simp only [exec, execCall, pushReturn_full h, raise_eq]

theorem exec_ret_ok {s : State} (h : s.sp.val ≠ 0) :
    exec .ret s = .next { s with
      pc := s.stack[s.sp.val - 1]'(by omega), sp := ⟨s.sp.val - 1, by omega⟩ } := by
  simp only [exec, execRet, popReturn_ok h, jumpTo]

theorem exec_ret_empty {s : State} (h : s.sp.val = 0) :
    exec .ret s = .next (recordFault .stackUnderflow (some (encode .ret)) s) := by
  simp only [exec, execRet, popReturn_empty h, raise_eq]

/-- CALLs that fit on the stack all complete, and each leaves one entry more. -/
theorem execCalls_ok (calls : List Addr12) (s : State) (h : s.sp.val + calls.length ≤ 16) :
    ∃ t, execCalls calls s = .next t ∧ t.fault = s.fault ∧ t.sp.val = s.sp.val + calls.length := by
  induction calls generalizing s with
  | nil => exact ⟨s, rfl, rfl, rfl⟩
  | cons nnn rest ih =>
    rw [List.length_cons] at h ⊢
    obtain ⟨u, hu, hufault, husp⟩ : ∃ u, exec (.call nnn) s = .next u ∧ u.fault = s.fault ∧ u.sp.val = s.sp.val + 1 :=
      ⟨_, exec_call_ok nnn (by omega), rfl, rfl⟩
    obtain ⟨t, ht, hfault, hsp⟩ := ih u (by omega)
    exact ⟨t, by simp only [execCalls, hu, ht], hfault.trans hufault, by omega⟩

/-! ## The skips (R103) -/

theorem skipIf_eq_ite {c : Bool} {p : Prop} [Decidable p] (hc : c = true ↔ p) (s : State) :
    skipIf c s = { s with pc := if p then s.pc + 4 else s.pc + 2 } := by
  by_cases hp : p
  · rw [if_pos hp, hc.mpr hp]; rfl
  · rw [if_neg hp, Bool.eq_false_iff.mpr (mt hc.mp hp)]; rfl

/-! ## The CPU tick (R100 to R102) -/

theorem cpuTick_of_not_executing {s : State} (h : ¬ executing s) : cpuTick s = .next s := by
  rcases cpuTick_cases s with ⟨-, hc⟩ | ⟨he, -⟩
  · exact hc
  · exact absurd he h

end Sys2Proof.Machine

open Sys2Proof Sys2Proof.Machine

/-- Settles O16: the entry that RET pops is the one that CALL wrote, at the index that CALL left `sp` above. -/
theorem callThenReturnComesBack : Obligations.CallThenReturnComesBack := by
  intro nnn s h
  refine ⟨_, exec_call_ok nnn h, fun u hsp hstack => ?_⟩
  have hval : u.sp.val = s.sp.val + 1 := congrArg Fin.val hsp
  refine ⟨_, exec_ret_ok (by omega), ?_, Fin.ext ?_⟩
  · simp [hval, hstack]
  · simp [hval]

/-- Settles O17: the 16 CALLs fill the stack, and a CALL on a full stack overflows. -/
theorem seventeenthNestedCallOverflows : Obligations.SeventeenthNestedCallOverflows := by
  intro calls nnn s hempty hlen
  obtain ⟨t, ht, hfault, hsp⟩ := execCalls_ok calls s (by omega)
  have hfull : t.sp.val = 16 := by omega
  exact ⟨t, ht, hfault, hfull, exec_call_full nnn hfull⟩

/-- Settles O6: the tick that finds its transaction taken off the list fetches the two bytes and executes them. -/
theorem stepRunsTheDecodedInstruction : Obligations.StepRunsTheDecodedInstruction := by
  refine ⟨fun s t rest hp => ?_, fun s hp => ?_, fun s rest i he hnext halign hrange hd => ?_⟩
  · rw [step_eq_perform, taken, hp]; rfl
  · rw [step_eq_perform, taken_nil hp, hp]; rfl
  · rw [step_cpuTick hnext]
    have he' : executing { s with pending := rest } := he
    exact cpuTick_exec he' (fetch_ok halign hrange) (decode_of_decodeBytes hd)

/-- Settles O9: a waiting core does not execute. -/
theorem waitingCoreIgnoresCpuTicks : Obligations.WaitingCoreIgnoresCpuTicks := by
  intro s hwait
  refine cpuTick_of_not_executing fun ⟨_, _, hrun⟩ => ?_
  cases hwait.symm.trans hrun

/-- Settles O12, policy by policy; the recorded word is the operand. -/
theorem sysFollowsItsPolicy : Obligations.SysFollowsItsPolicy := by
  refine fun nnn s => ⟨fun h => ?_, fun h => exec_sys_nop nnn h⟩
  rw [exec_sys_fault nnn h, encode_sys]
  rfl

/-- Settles O13: both operands are widened, and their sum does not wrap. -/
theorem jumpsGoToTheirTargets : Obligations.JumpsGoToTheirTargets :=
  fun nnn s => ⟨⟨jumpTo (zextAddr nnn) s, rfl, zextAddr_toNat nnn, rfl⟩,
    ⟨jumpTo (zextAddr nnn + zextByte (getV s 0)) s, rfl, zextAddr_add_zextByte_toNat nnn _, rfl⟩⟩

/-- Settles O14: the stack with room, entry by entry, then the full one. -/
theorem callPushesAndJumps : Obligations.CallPushesAndJumps := by
  refine fun nnn s => ⟨fun h => ?_, fun h => exec_call_full nnn h⟩
  refine ⟨_, exec_call_ok nnn h, rfl, zextAddr_toNat nnn, ?_, fun j hj => ?_, rfl⟩
  · simp
  · simp [hj.symm]

/-- Settles O15: the stack with an entry, then the empty one. -/
theorem returnPopsItsAddress : Obligations.ReturnPopsItsAddress :=
  fun _ => ⟨fun h => ⟨_, exec_ret_ok h, rfl, rfl, rfl⟩, fun h => exec_ret_empty h⟩

/-- Settles O18: each skip's Boolean test decides its condition. -/
theorem skipsFollowTheirConditions : Obligations.SkipsFollowTheirConditions :=
  fun _ _ _ s => ⟨congrArg Host.Outcome.next (skipIf_eq_ite beq_iff_eq s),
    congrArg Host.Outcome.next (skipIf_eq_ite bne_iff_ne s),
    congrArg Host.Outcome.next (skipIf_eq_ite beq_iff_eq s),
    congrArg Host.Outcome.next (skipIf_eq_ite bne_iff_ne s)⟩

end

section
/-! PROOFS. Loads, ALU and random (41_alu.md R130 to R143): the values and flags as numbers, then one lemma for the five
instructions that end in the two writes of R131. -/

namespace Sys2Proof.Machine

/-! ## Flags as numbers (R130, R138 to R142) -/

theorem flagByte_decide_toNat (p : Prop) [Decidable p] : (flagByte (decide p)).toNat = if p then 1 else 0 := by
  by_cases h : p <;> simp [flagByte, h]

theorem flagByte_carryFlag_toNat (a b : Byte) :
    (flagByte (carryFlag a b)).toNat = if a.toNat + b.toNat > 255 then 1 else 0 :=
  flagByte_decide_toNat _

theorem flagByte_noBorrowFlag_toNat (a b : Byte) :
    (flagByte (noBorrowFlag a b)).toNat = if a.toNat ≥ b.toNat then 1 else 0 :=
  flagByte_decide_toNat _

theorem flagByte_toNat (f : Bool) : (flagByte f).toNat = f.toNat := by
  cases f <;> rfl

theorem flagByte_shiftRightOut_toNat (a : Byte) : (flagByte (shiftRightOut a)).toNat = a.toNat % 2 := by
  rw [flagByte_toNat, shiftRightOut, BitVec.getLsbD, Nat.toNat_testBit, pow_zero, Nat.div_one]

theorem flagByte_shiftLeftOut_toNat (a : Byte) : (flagByte (shiftLeftOut a)).toNat = a.toNat / 128 := by
  have := a.isLt
  rw [flagByte_toNat, shiftLeftOut, BitVec.getLsbD, Nat.toNat_testBit]
  omega

/-! ## Results as numbers (R133, R138 to R142) -/

/-- The difference modulo 256, with the minuend raised by 256 so that no natural subtraction is cut off. -/
theorem sub_toNat_byte (a b : Byte) : (a - b).toNat = (a.toNat + 256 - b.toNat) % 256 := by
  have := b.isLt
  rw [BitVec.toNat_sub]
  omega

theorem shiftRight_one_toNat (a : Byte) : (a >>> 1).toNat = a.toNat / 2 := by
  rw [BitVec.toNat_ushiftRight, Nat.shiftRight_eq_div_pow, pow_one]

theorem shiftLeft_one_toNat (a : Byte) : (a <<< 1).toNat = a.toNat * 2 % 256 := by
  rw [BitVec.toNat_shiftLeft, Nat.shiftLeft_eq, pow_one]

theorem add_eq_ofNat_mod (a b : Byte) : a + b = BitVec.ofNat 8 ((a.toNat + b.toNat) % 256) := by
  apply BitVec.eq_of_toNat_eq
  rw [BitVec.toNat_add, BitVec.toNat_ofNat, Nat.mod_mod]

/-! ## The two writes (R131) -/

/-- What an instruction that ends in `WriteFlagged(X, r, f)` leaves in the registers and in the rest of the state, with
the result and the flag as the numbers `m` and `c`. -/
theorem exec_writeFlagged_spec {i : Instr} {x : Reg} {r : Byte} {f : Bool} {s : State} {m c : Nat}
    (h : exec i s = .next (advance2 (writeFlagged x r f s))) (hr : r.toNat = m) (hf : (flagByte f).toNat = c) :
    ∃ t, exec i s = .next t ∧
      (x ≠ VF → t.v[x].toNat = m ∧ t.v[VF].toNat = c) ∧
      (x = VF → s.cfg.flagOrder = .destLast → t.v[VF].toNat = m) ∧
      (x = VF → s.cfg.flagOrder = .flagLast → t.v[VF].toNat = c) ∧
      (∀ q, q ≠ x → q ≠ VF → t.v[q] = s.v[q]) ∧ t = { s with v := t.v, pc := s.pc + 2 } := by
  subst hr hf
  refine ⟨_, h, fun hx => ?_, fun hx ho => ?_, fun hx ho => ?_, fun q hqx hqf => writeFlagged_other hqx hqf r f s, ?_⟩
  · obtain ⟨hdest, hflag⟩ := writeFlagged_ne hx r f s
    exact ⟨congrArg BitVec.toNat hdest, congrArg BitVec.toNat hflag⟩
  · subst hx
    rw [advance2_v, writeFlagged_VF, ho]
  · subst hx
    rw [advance2_v, writeFlagged_VF, ho]
  · exact congrArg advance2 (writeFlagged_eq x r f s)

/-! ## The random byte (R143, R246) -/

theorem nextRandom_cons {s : State} {b : Byte} {bs : List Byte} (h : s.rand = b :: bs) : nextRandom s = b := by
  simp only [nextRandom, h]

end Sys2Proof.Machine

open Sys2Proof Sys2Proof.Machine

/-- Settles O20: the sum and its carry, written by `WriteFlagged`. -/
theorem addSetsTheCarry : Obligations.AddSetsTheCarry :=
  fun _ _ _ => exec_writeFlagged_spec rfl (BitVec.toNat_add ..) (flagByte_carryFlag_toNat ..)

/-- Settles O21: the difference and its not-borrow, with the operands one way round and the other. -/
theorem subtractsSetNotBorrow : Obligations.SubtractsSetNotBorrow :=
  fun _ _ _ => ⟨exec_writeFlagged_spec rfl (sub_toNat_byte ..) (flagByte_noBorrowFlag_toNat ..),
    exec_writeFlagged_spec rfl (sub_toNat_byte ..) (flagByte_noBorrowFlag_toNat ..)⟩

/-- Settles O22: each shift and the bit it moves out; neither reads Y. -/
theorem shiftsMoveOneBitOut : Obligations.ShiftsMoveOneBitOut :=
  fun _ _ _ => ⟨exec_writeFlagged_spec rfl (shiftRight_one_toNat _) (flagByte_shiftRightOut_toNat _),
    exec_writeFlagged_spec rfl (shiftLeft_one_toNat _) (flagByte_shiftLeftOut_toNat _)⟩

/-- Settles O19: each is one register write and the advance; only the sum of 7XNN needs its value as a number. -/
theorem loadsAndLogicWriteTheirRegister : Obligations.LoadsAndLogicWriteTheirRegister := by
  refine fun x y nn s => ⟨rfl, ?_, rfl, rfl, rfl, rfl⟩
  rw [← add_eq_ofNat_mod]
  rfl

/-- Settles O23: the byte written is `nextRandom` under the mask, and `consumeRandom` takes exactly one. -/
theorem randomDrawsOneMaskedByte : Obligations.RandomDrawsOneMaskedByte := by
  intro x nn s
  have hx : (setV x (nextRandom s &&& nn) (consumeRandom s)).v[x] = nextRandom s &&& nn := getElem_setV_same ..
  refine ⟨_, rfl, hx, fun b bs hrand => ⟨?_, ?_⟩, fun hzero => ?_, rfl, rfl, fun r hr => getElem_setV_ne hr .., rfl⟩
  · exact hx.trans (by rw [nextRandom_cons hrand])
  · exact congrArg List.tail hrand
  · exact hx.trans (by rw [hzero]; exact BitVec.and_zero)

end

section
/-! PROOFS. Index register and memory (42_index_memory.md R160 to R166): one lemma per outcome of FX29, FX33, FX55 and
FX65, what each block holds afterwards, then the statements. -/

namespace Sys2Proof.Machine

/-! ## The index register (R162, R163, R165, R166) -/

theorem add_zextByte_toNat (a : Word) (b : Byte) : (a + zextByte b).toNat = (a.toNat + b.toNat) % 65536 := by
  rw [BitVec.toNat_add, zextByte_toNat]

/-- The sprite of digit F stands at 0x09B, so the address does not wrap. -/
theorem fontAddr_toNat (d : Fin 16) : (fontAddr d).toNat = 0x050 + 5 * d.val := by
  have := d.isLt
  rw [fontAddr, fontBase, BitVec.toNat_ofNat]
  omega

theorem incrementIndex_index_of_false {x : Reg} {s : State} (h : s.cfg.lsIncrementI = false) :
    (incrementIndex x s).index = s.index := by
  simp [h]

theorem incrementIndex_index_toNat {x : Reg} {s : State} (h : s.cfg.lsIncrementI = true) :
    (incrementIndex x s).index.toNat = (s.index.toNat + x.val + 1) % 65536 := by
  rw [incrementIndex_index, if_pos h, BitVec.toNat_add, BitVec.toNat_ofNat]
  omega

/-! ## LD F (R163) -/

theorem exec_ldF_ok {x : Reg} {s : State} (h : s.v[x].toNat ≤ 0xF ∨ s.cfg.fontDigitPolicy = .lowNibble) :
    exec (.ldF x) s = .next (advance2 (setIndex (fontAddr (lowNibble s.v[x])) s)) := by
  have hd : fontDigit s.cfg (getV s x) = .ok (lowNibble s.v[x]) := by
    rcases h with hsmall | hp
    · exact digitOf_small hsmall
    · rw [fontDigit, hp]; exact digitOf_lowNibble
  simp only [exec, execLdF, hd]

theorem exec_ldF_fault {x : Reg} {s : State} (h : s.v[x].toNat > 0xF) (hp : s.cfg.fontDigitPolicy = .fault) :
    exec (.ldF x) s = .next (recordFault .fontDigitOutOfRange (some (encode (.ldF x))) s) := by
  have hd : fontDigit s.cfg (getV s x) = .error .fontDigitOutOfRange := by
    rw [fontDigit, hp]; exact digitOf_fault h
  simp only [exec, execLdF, hd, raise_eq]

/-! ## LD B (R164) -/

@[simp] theorem bcdDigits_length (b : Byte) : (bcdDigits b).length = 3 := rfl

/-- A byte has three decimal digits, and a digit fits in a byte. -/
theorem bcdDigits_toNat (b : Byte) : (bcdDigits b)[0].toNat = b.toNat / 100 ∧
    (bcdDigits b)[1].toNat = b.toNat / 10 % 10 ∧ (bcdDigits b)[2].toNat = b.toNat % 10 := by
  have := b.isLt
  refine ⟨?_, ?_, ?_⟩ <;> exact (BitVec.toNat_ofNat ..).trans (Nat.mod_eq_of_lt (by omega))

/-- FX33 at addresses that may be written puts digit `k` at I + k, hundreds first. -/
theorem exec_ldB_reads {x : Reg} {s : State} (hwf : Memory.wf s.mem = true) (hb : blockAllowed s .write 3) :
    ∃ t, exec (.ldB x) s = .next t ∧ t = { s with mem := t.mem, pc := s.pc + 2 } ∧
      ∀ k (hk : k < 3), Memory.read t.mem (blockAddr s k) = (bcdDigits s.v[x])[k] := by
  have hok : exec (.ldB x) s =
      .next (advance2 (storeAll ((List.range 3).map (blockAddr s)) (bcdDigits s.v[x]) s)) := by
    simp only [exec, execLdB, dataBlock_ok hb, getV]
  exact ⟨_, hok, rfl, fun k hk => read_storeBlock hwf (n := 3) (by decide) rfl hk⟩

theorem exec_ldB_fault {x : Reg} {s : State} {k : FaultKind} (h : dataBlock s .write 3 = .error k) :
    exec (.ldB x) s = .next (recordFault k (some (encode (.ldB x))) s) := by
  simp only [exec, execLdB, h, raise_eq]

/-! ## LD [I], VX (R165) -/

theorem exec_storeRegs_fault {x : Reg} {s : State} {k : FaultKind} (h : dataBlock s .write (x.val + 1) = .error k) :
    exec (.storeRegs x) s = .next (recordFault k (some (encode (.storeRegs x))) s) := by
  simp only [exec, execStoreRegs, h, raise_eq]

/-! ## LD VX, [I] (R166) -/

theorem exec_loadRegs_ok {x : Reg} {s : State} (hb : blockAllowed s .read (x.val + 1)) :
    exec (.loadRegs x) s = .next (advance2 (incrementIndex x
      (loadFrom 0 (readAll s ((List.range (x.val + 1)).map (blockAddr s))) s))) := by
  simp only [exec, execLoadRegs, dataBlock_ok hb]

/-- FX65 at addresses that may be read puts the byte at I + r into V[r], for every r up to X. -/
theorem exec_loadRegs_reads {x : Reg} {s : State} (hb : blockAllowed s .read (x.val + 1)) :
    ∃ t, exec (.loadRegs x) s = .next t ∧ ∀ r : Reg, r ≤ x → t.v[r] = Memory.read s.mem (blockAddr s r.val) := by
  refine ⟨_, exec_loadRegs_ok hb, fun r hr => ?_⟩
  have hlen : (readAll s ((List.range (x.val + 1)).map (blockAddr s))).length = x.val + 1 := by simp [readAll]
  have hle : r.val ≤ x.val := hr
  rw [advance2_v, incrementIndex_v, getElem_loadFrom _ _ _ (by omega), dif_pos (by omega)]
  simp [readAll]

theorem exec_loadRegs_fault {x : Reg} {s : State} {k : FaultKind} (h : dataBlock s .read (x.val + 1) = .error k) :
    exec (.loadRegs x) s = .next (recordFault k (some (encode (.loadRegs x))) s) := by
  simp only [exec, execLoadRegs, h, raise_eq]

/-! ## A block written, then read -/

/-- A block that may be written may be read, in any state with the same I and parameters. -/
theorem blockAllowed_read_of_write {s u : State} {n : Nat} (hb : blockAllowed s .write n) (hindex : u.index = s.index)
    (hcfg : u.cfg = s.cfg) : blockAllowed u .read n := by
  intro k hk
  obtain ⟨hrange, -⟩ := hb k hk
  rw [hindex, hcfg]
  exact allowed_read hrange

theorem blockAddr_congr {s u : State} (hindex : u.index = s.index) (k : Nat) : blockAddr u k = blockAddr s k := by
  rw [blockAddr, hindex, blockAddr]

end Sys2Proof.Machine

open Sys2Proof Sys2Proof.Machine

/-- Settles O27: the three digits at the stored block, then the lowest address that fails. -/
theorem bcdStoresThreeDigits : Obligations.BcdStoresThreeDigits := by
  refine fun x s hwf => ⟨fun hb => ?_, fun k hk hlow hf => exec_ldB_fault (dataBlock_error hk hlow hf)⟩
  obtain ⟨t, ht, hframe, hread⟩ := exec_ldB_reads (x := x) hwf hb
  obtain ⟨hhundreds, htens, hunits⟩ := bcdDigits_toNat s.v[x]
  refine ⟨t, ht, ?_, ?_, ?_, fun a ha => memoryChangesOnlyWhereStored _ s t a ht ha, hframe⟩
  · rw [hread 0 (by decide), hhundreds]
  · rw [hread 1 (by decide), htens]
  · rw [hread 2 (by decide), hunits]

/-- Settles O28: V0 to VX at the stored block and I by its policy, then the lowest address that fails. -/
theorem storeRegistersFillsTheBlock : Obligations.StoreRegistersFillsTheBlock := by
  refine fun x s hwf => ⟨fun hb => ?_, fun k hk hlow hf => exec_storeRegs_fault (dataBlock_error hk hlow hf)⟩
  have hok := exec_storeRegs_ok hb
  obtain ⟨t, ht, hread⟩ := exec_storeRegs_reads hwf hb
  cases hok.symm.trans ht
  refine ⟨_, ht, fun r hr => hread r.val (Nat.lt_succ_of_le hr),
    fun a ha => memoryChangesOnlyWhereStored _ s _ a ht ha, fun hi => incrementIndex_index_of_false hi,
    fun hi => incrementIndex_index_toNat hi, ?_⟩
  rw [incrementIndex_eq]; rfl

/-- Settles O29: V0 to VX from the block, the registers above as they were and I by its policy, then the lowest address
that fails. -/
theorem loadRegistersReadsTheBlock : Obligations.LoadRegistersReadsTheBlock := by
  refine fun x s => ⟨fun hb => ?_, fun k hk hlow hf => exec_loadRegs_fault (dataBlock_error hk hlow hf)⟩
  have hok := exec_loadRegs_ok hb
  obtain ⟨t, ht, hread⟩ := exec_loadRegs_reads hb
  cases hok.symm.trans ht
  refine ⟨_, ht, hread, fun r hr => exec_loadRegs_above ht (not_le.mpr hr), fun hi => ?_, fun hi => ?_, ?_⟩
  · rw [advance2_index, incrementIndex_index_of_false (by rw [loadFrom_cfg, hi]), loadFrom_index]
  · rw [advance2_index, incrementIndex_index_toNat (by rw [loadFrom_cfg, hi]), loadFrom_index]
  · rw [incrementIndex_eq, loadFrom_eq]; rfl

/-- Settles O30: the load reads, address by address, the block that the store wrote. -/
theorem storeThenLoadGivesRegistersBack : Obligations.StoreThenLoadGivesRegistersBack := by
  intro x s hwf hb
  obtain ⟨t, ht, hstored⟩ := exec_storeRegs_reads hwf hb
  refine ⟨t, ht, fun u hmem hindex hcfg => ?_⟩
  obtain ⟨u', hu', hloaded⟩ := exec_loadRegs_reads (blockAllowed_read_of_write hb hindex hcfg)
  refine ⟨u', hu', fun r hr => ?_⟩
  rw [hloaded r hr, hmem, blockAddr_congr hindex]
  exact hstored r.val (Nat.lt_succ_of_le hr)

/-- Settles O24: both are one write of I and the advance. -/
theorem indexLoadAndAdd : Obligations.IndexLoadAndAdd :=
  fun nnn x s => ⟨⟨advance2 (setIndex (zextAddr nnn) s), rfl, zextAddr_toNat nnn, rfl⟩,
    ⟨advance2 (setIndex (s.index + zextByte (getV s x)) s), rfl, add_zextByte_toNat .., rfl⟩⟩

/-- Settles O25: the digit is the low nibble wherever there is one. -/
theorem fontLookupAddressesTheDigit : Obligations.FontLookupAddressesTheDigit :=
  fun _ _ => ⟨fun h => ⟨_, exec_ldF_ok h, fontAddr_toNat _, rfl⟩, fun h hp => exec_ldF_fault h hp⟩

end

section
/-! PROOFS. The display (43_display.md R180 to R183): where the bits of a sprite land, what DXYN does to every pixel and
to VF, then the statements. -/

namespace Sys2Proof.Machine

/-! ## Where the bits of a sprite land (R180) -/

theorem eq_columnOffset_iff {x0 c : Nat} {x : Fin 64} (hc : c < 8) :
    x.val = (x0 + c) % 64 ↔ columnOffset x0 x = c := by
  rw [← columnOf_eq_iff x0 c x hc, Fin.ext_iff]
  exact eq_comm

theorem eq_rowOffset_iff {y0 r : Nat} {y : Fin 32} (hr : r < 32) :
    y.val = (y0 + r) % 32 ↔ rowOffset y0 y = r := by
  have := y.isLt
  rw [rowOffset]
  omega

/-- Coverage through the two offsets: the pixel's row is one of the sprite's, and its column bit there is set. -/
theorem spriteCovers_iff {sprite : List Byte} {x0 y0 : Nat} {x : Fin 64} {y : Fin 32} :
    spriteCovers sprite x0 y0 x y = true ↔ columnOffset x0 x < 8 ∧
      ∃ h : rowOffset y0 y < sprite.length, spriteBit sprite[rowOffset y0 y] (columnOffset x0 x) = true := by
  rw [spriteCovers, Bool.and_eq_true, decide_eq_true_eq]
  by_cases h : rowOffset y0 y < sprite.length <;> simp [h]

theorem spriteCovers_iff_bit {sprite : List Byte} (hl : sprite.length ≤ 32) {x0 y0 : Nat} {x : Fin 64} {y : Fin 32} :
    spriteCovers sprite x0 y0 x y = true ↔ ∃ r c, c < 8 ∧ x.val = (x0 + c) % 64 ∧ y.val = (y0 + r) % 32 ∧
      ∃ h : r < sprite.length, spriteBit sprite[r] c = true := by
  rw [spriteCovers_iff]
  constructor
  · rintro ⟨hc, hr, hbit⟩
    exact ⟨_, _, hc, (eq_columnOffset_iff hc).mpr rfl, (eq_rowOffset_iff (by omega)).mpr rfl, hr, hbit⟩
  · rintro ⟨r, c, hc, hx, hy, hr, hbit⟩
    obtain rfl := (eq_columnOffset_iff hc).mp hx
    obtain rfl := (eq_rowOffset_iff (by omega)).mp hy
    exact ⟨hc, hr, hbit⟩

theorem byte_ne_zero_iff_spriteBit (b : Byte) : b ≠ 0 ↔ ∃ c < 8, spriteBit b c = true := by
  constructor
  · intro hb
    by_contra hnone
    push Not at hnone
    refine hb (BitVec.eq_of_getLsbD_eq fun i hi => ?_)
    have h := hnone (7 - i) (by omega)
    rw [spriteBit, show 7 - (7 - i) = i by omega] at h
    simpa using h
  · rintro ⟨c, -, hbit⟩ rfl
    simp [spriteBit] at hbit

/-- Every set bit of a sprite lands somewhere. -/
theorem exists_spriteCovers_iff {sprite : List Byte} (hl : sprite.length ≤ 32) (x0 y0 : Nat) :
    (∃ x y, spriteCovers sprite x0 y0 x y = true) ↔ ∃ b ∈ sprite, b ≠ 0 := by
  simp only [spriteCovers_iff_bit hl, byte_ne_zero_iff_spriteBit]
  constructor
  · rintro ⟨-, -, r, c, hc, -, -, hr, hbit⟩
    exact ⟨sprite[r], List.getElem_mem hr, c, hc, hbit⟩
  · rintro ⟨b, hb, c, hc, hbit⟩
    obtain ⟨r, hr, rfl⟩ := List.mem_iff_getElem.mp hb
    exact ⟨Fin.ofNat 64 (x0 + c), Fin.ofNat 32 (y0 + r), r, c, hc, rfl, rfl, hr, hbit⟩

/-! ## The sprite of DXYN (R182) -/

theorem spriteBytes_length_le (s : State) (n : Nibble) : (spriteBytes s n).length ≤ 32 := by
  have := n.isLt
  simp only [spriteBytes, List.length_map, List.length_range]
  omega

theorem readAll_blockAddrs (s : State) (n : Nibble) :
    readAll s ((List.range n.toNat).map (blockAddr s)) = spriteBytes s n :=
  List.map_map

theorem spriteBytes_congr {s u : State} (hmem : u.mem = s.mem) (hindex : u.index = s.index) (n : Nibble) :
    spriteBytes u n = spriteBytes s n := by
  simp only [spriteBytes, hmem, blockAddr_congr hindex]

theorem blockAllowed_congr {s u : State} {acc : Access} {n : Nat} (hindex : u.index = s.index) (hcfg : u.cfg = s.cfg) :
    blockAllowed u acc n ↔ blockAllowed s acc n := by
  rw [blockAllowed, hindex, hcfg, blockAllowed]

/-! ## DXYN (R182) -/

theorem exec_drw_ok {x y : Reg} {n : Nibble} {s : State} (hb : blockAllowed s .read n.toNat) :
    exec (.drw x y n) s = .next (advance2 (drawAt s.v[x].toNat s.v[y].toNat (spriteBytes s n) s)) := by
  simp only [exec, execDrw, dataBlock_ok hb, readAll_blockAddrs, getV]

theorem exec_drw_fault {x y : Reg} {n : Nibble} {s : State} {k : FaultKind}
    (h : dataBlock s .read n.toNat = .error k) :
    exec (.drw x y n) s = .next (recordFault k (some (encode (.drw x y n))) s) := by
  simp only [exec, execDrw, h, raise_eq]

theorem drawAt_VF (x0 y0 : Nat) (sprite : List Byte) (s : State) :
    (drawAt x0 y0 sprite s).v[VF] = flagByte (drawSprite s.disp x0 y0 sprite).2 :=
  getElem_setV_same ..

theorem drawAt_other {r : Reg} (hr : r ≠ VF) (x0 y0 : Nat) (sprite : List Byte) (s : State) :
    (drawAt x0 y0 sprite s).v[r] = s.v[r] :=
  getElem_setV_ne hr ..

theorem flagByte_eq_one_iff (f : Bool) : flagByte f = 1 ↔ f = true := by
  cases f <;> decide

theorem flagByte_zero_or_one (f : Bool) : flagByte f = 0 ∨ flagByte f = 1 := by
  cases f <;> decide

end Sys2Proof.Machine

open Sys2Proof Sys2Proof.Machine

/-- Settles O33: the offsets of the pixel are the row and the column of the bit. -/
theorem spriteCoversWhereItsBitsLand : Obligations.SpriteCoversWhereItsBitsLand :=
  fun _ _ _ _ _ hl => spriteCovers_iff_bit hl

/-- Settles O34: the sprite XORed onto the buffer and its collision in VF, then the lowest address that fails. -/
theorem drawXorsTheSpriteAndReportsCollision : Obligations.DrawXorsTheSpriteAndReportsCollision := by
  refine fun x y n s => ⟨fun hb => ?_, fun k hk hlow hf => exec_drw_fault (dataBlock_error hk hlow hf)⟩
  have hl := spriteBytes_length_le s n
  refine ⟨_, exec_drw_ok hb, fun px py => drawSprite_pixel _ _ _ _ hl px py, ?_, ?_,
    fun r hr => drawAt_other hr .., rfl⟩
  · rw [advance2_v, drawAt_VF, flagByte_eq_one_iff, drawSprite_flag _ _ _ _ hl]
  · rw [advance2_v, drawAt_VF]
    exact flagByte_zero_or_one _

/-- Settles O35: two XORs with one sprite cancel, and before the second every covered pixel is the inverse of what it
was before the first. -/
theorem drawingTwiceRestoresTheBuffer : Obligations.DrawingTwiceRestoresTheBuffer := by
  intro x y n s hb
  obtain ⟨t, ht, hpixel, -⟩ := (drawXorsTheSpriteAndReportsCollision x y n s).1 hb
  refine ⟨t, ht, fun u hdisp hmem hindex hcfg hx hy => ?_⟩
  obtain ⟨u', hu', hpixel', hflag', -⟩ :=
    (drawXorsTheSpriteAndReportsCollision x y n u).1 ((blockAllowed_congr hindex hcfg).mpr hb)
  rw [hx, hy, spriteBytes_congr hmem hindex, hdisp] at hpixel' hflag'
  have hflag : u'.v[VF] = 1 ↔ ∃ px py, spriteCovers (spriteBytes s n) s.v[x].toNat s.v[y].toNat px py = true ∧
      Display.pixel s.disp px py = false := by
    rw [hflag']
    refine exists_congr fun px => exists_congr fun py => and_congr_right fun hcovered => ?_
    rw [hpixel, hcovered, Bool.xor_true, Bool.not_eq_true']
  refine ⟨u', hu', Display.ext_pixel fun px py => ?_, hflag, fun hclear => ?_⟩
  · rw [hpixel', hpixel, Bool.xor_assoc, Bool.xor_self, Bool.xor_false]
  · rw [hflag, hclear, ← exists_spriteCovers_iff (spriteBytes_length_le s n) s.v[x].toNat s.v[y].toNat]
    simp only [Display.pixel_clear, and_true]

/-- Settles O32: every pixel of the cleared buffer is off. -/
theorem clearTurnsEveryPixelOff : Obligations.ClearTurnsEveryPixelOff :=
  fun _ => ⟨_, rfl, Display.pixel_clear, rfl⟩

end

section
/-! PROOFS. Keys and timers (44_input_timers.md R200 to R210): the key index and the skips, one transaction of a waiting
core and then any list of them, and the timers counted down by induction. -/

namespace Sys2Proof.Machine

/-! ## The key skips (R200 to R202) -/

/-- A byte that is a digit, or is cut to its low nibble, gives its low nibble. -/
theorem digitOf_ok {p : DigitPolicy} {k : FaultKind} {b : Byte} (h : b.toNat ≤ 0xF ∨ p = .lowNibble) :
    digitOf p k b = .ok (lowNibble b) := by
  rcases h with hsmall | rfl
  · exact digitOf_small hsmall
  · exact digitOf_lowNibble

theorem keyIndex_fault {cfg : Config} {b : Byte} (h : b.toNat > 0xF) (hp : cfg.keyIndexPolicy = .fault) :
    keyIndex cfg b = .error .keyIndexOutOfRange := by
  rw [keyIndex, hp]; exact digitOf_fault h

theorem exec_skp_ok {x : Reg} {s : State} {k : Key} (h : keyIndex s.cfg s.v[x] = .ok k) :
    exec (.skp x) s = .next (skipIf s.key[k] s) := by
  simp only [exec, execSkp, getV, h]

theorem exec_sknp_ok {x : Reg} {s : State} {k : Key} (h : keyIndex s.cfg s.v[x] = .ok k) :
    exec (.sknp x) s = .next (skipIf (!s.key[k]) s) := by
  simp only [exec, execSknp, getV, h]

theorem exec_skp_fault {x : Reg} {s : State} {f : FaultKind} (h : keyIndex s.cfg s.v[x] = .error f) :
    exec (.skp x) s = .next (recordFault f (some (encode (.skp x))) s) := by
  simp only [exec, execSkp, getV, h, raise_eq]

theorem exec_sknp_fault {x : Reg} {s : State} {f : FaultKind} (h : keyIndex s.cfg s.v[x] = .error f) :
    exec (.sknp x) s = .next (recordFault f (some (encode (.sknp x))) s) := by
  simp only [exec, execSknp, getV, h, raise_eq]

/-! ## A waiting core (R102, R204, R207, R210) -/

/-- A transaction that keeps the wait can change the latch and the timers of a waiting core, and nothing else. -/
theorem perform_of_keepsWaiting {tr : Transaction} {s : State} (hrun : s.run = .awaitingKey) (htr : keepsWaiting tr) :
    ∃ key dt st, perform tr s = .next { s with key := key, dt := dt, st := st } := by
  cases tr with
  | cpuTick => exact ⟨_, _, _, waitingCoreIgnoresCpuTicks s hrun⟩
  | timerTick => rcases timerTick_cases s with h | h <;> exact ⟨_, _, _, congrArg Host.Outcome.next h⟩
  | keyEvent k p =>
    have hrelease : p = false := htr
    exact ⟨_, _, _, congrArg Host.Outcome.next (keyEvent_latch (by simp [hrelease]))⟩
  | loadFont | loadProgram => exact htr.elim
  | displayRead | toneRead | statusRead => exact ⟨_, _, _, rfl⟩

/-- Through any list of such transactions the latch and the timers are all that changes beside the host's list. -/
theorem run_of_keepsWaiting {ts rest : List Transaction} {s : State} (hrun : s.run = .awaitingKey)
    (hts : ∀ tr ∈ ts, keepsWaiting tr) (hp : s.pending = ts ++ rest) :
    ∃ key dt st, core.run ts.length s = .next { s with key := key, dt := dt, st := st, pending := rest } := by
  induction ts generalizing s with
  | nil => subst hp; exact ⟨s.key, s.dt, s.st, rfl⟩
  | cons tr ts ih =>
    obtain ⟨htr, hts⟩ := List.forall_mem_cons.mp hts
    have hstep := stepRunsTheDecodedInstruction.1 s tr (ts ++ rest) hp
    obtain ⟨key, dt, st, hperform⟩ := perform_of_keepsWaiting (s := { s with pending := ts ++ rest }) hrun htr
    obtain ⟨key', dt', st', htail⟩ :=
      ih (s := { s with key := key, dt := dt, st := st, pending := ts ++ rest }) hrun hts rfl
    exact ⟨key', dt', st', (core_run_succ ts.length (hstep.trans hperform)).trans htail⟩

theorem step_pressEdge {s : State} {k : Key} {rest : List Transaction} (hfault : s.fault = none)
    (hrun : s.run = .awaitingKey) (hup : s.key[k] = false) (hp : s.pending = .keyEvent k true :: rest) :
    step s = .next (completeWait k { s with key := s.key.set k.val true, pending := rest }) :=
  (step_keyEvent hp).trans (congrArg Host.Outcome.next
    (keyEvent_completes (s := { s with pending := rest }) ⟨hfault, hrun, rfl, hup⟩))

/-! ## A counting core (R210) -/

theorem step_timerTick_counts {s : State} {rest : List Transaction} (hboot : s.boot = .started) (hfault : s.fault = none)
    (hp : s.pending = .timerTick :: rest) :
    step s = .next { s with dt := countDown s.dt, st := countDown s.st, pending := rest } :=
  (step_timerTick hp).trans (congrArg Host.Outcome.next (timerTick_counts (s := { s with pending := rest }) hboot hfault))

end Sys2Proof.Machine

open Sys2Proof Sys2Proof.Machine

/-- Settles O39: the list leaves `pc`, the registers and the wait as they were, so the press edge finds the wait. -/
theorem keyWaitHoldsUntilAPressEdge : Obligations.KeyWaitHoldsUntilAPressEdge := by
  intro s ts rest k hrun hfault hts hp
  obtain ⟨key, dt, st, hu⟩ := run_of_keepsWaiting hrun hts hp
  refine ⟨_, hu, rfl, rfl, hrun, hfault, rfl, fun hup => ⟨_, step_pressEdge hfault hrun hup rfl, ?_⟩⟩
  refine ⟨rfl, rfl, fun r => ?_, by simp, rfl⟩
  exact (getElem_setV s.waitReg r (keyByte k) s).trans (if_congr eq_comm rfl rfl)

/-- Settles O41: every tick of the list takes one more off. -/
theorem timersStopAtZero : Obligations.TimersStopAtZero := by
  intro n
  induction n with
  | zero => exact fun s rest _ _ hp => ⟨s, rfl, rfl, rfl, hp⟩
  | succ n ih =>
    intro s rest hboot hfault hp
    have hstep := step_timerTick_counts hboot hfault hp
    obtain ⟨t, hrun, hdt, hst, hrest⟩ :=
      ih { s with dt := countDown s.dt, st := countDown s.st, pending := .replicate n .timerTick ++ rest } rest
        hboot hfault rfl
    rw [countDown_toNat] at hdt hst
    exact ⟨t, (core_run_succ n hstep).trans hrun, by omega, by omega, hrest⟩

/-- Settles O36: the key is the low nibble wherever there is one. -/
theorem keySkipsTestTheLatch : Obligations.KeySkipsTestTheLatch := by
  refine fun x s => ⟨fun h => ?_, fun h hp => ?_⟩
  · have hkey : keyIndex s.cfg s.v[x] = .ok (lowNibble s.v[x]) := digitOf_ok h
    exact ⟨(exec_skp_ok hkey).trans (congrArg Host.Outcome.next (skipIf_eq_ite Iff.rfl s)),
      (exec_sknp_ok hkey).trans (congrArg Host.Outcome.next (skipIf_eq_ite (Bool.not_eq_true' _).to_iff s))⟩
  · have hkey := keyIndex_fault h hp
    exact ⟨exec_skp_fault hkey, exec_sknp_fault hkey⟩

/-- Settles O37: each is one write, and the three timer instructions then advance. -/
theorem timerAndKeyWaitInstructions : Obligations.TimerAndKeyWaitInstructions :=
  fun _ _ => ⟨rfl, rfl, rfl, rfl⟩

/-- Settles O38: the press edge that finds a wait, then every other event. -/
theorem keyEventWritesLatchAndCompletesWait : Obligations.KeyEventWritesLatchAndCompletesWait :=
  fun _ _ _ => ⟨fun h => congrArg Host.Outcome.next (keyEvent_completes h),
    fun h => congrArg Host.Outcome.next (keyEvent_latch h)⟩

/-- Settles O40: the tick of a halted core, then the count of both timers. -/
theorem timerTickCountsBothDown : Obligations.TimerTickCountsBothDown :=
  fun _ hboot => ⟨fun hf => congrArg Host.Outcome.next (timerTick_idle (Or.inr hf)),
    fun hf => ⟨_, congrArg Host.Outcome.next (timerTick_counts hboot hf), countDown_toNat _, countDown_toNat _, rfl⟩⟩

end

section
/-! PROOFS. Faults (60_exceptions.md R220, R222, R223): the kinds each check answers with and so each instruction raises,
what a halted core still does, and the one transaction that can record a fault. -/

namespace Sys2Proof.Machine

/-! ## The kinds each check answers with (R220) -/

theorem digitOf_error_kind {p : DigitPolicy} {f k : FaultKind} {b : Byte} (h : digitOf p f b = .error k) : k = f := by
  unfold digitOf at h
  split at h
  · cases h
  · cases p <;> cases h
    rfl

theorem addrFault_mem (cfg : Config) (a : Nat) : addrFault cfg a ∈ [.addressOutOfRange, .reservedWrite] := by
  unfold addrFault
  split <;> decide

/-- Only the range check can refuse a read. -/
theorem addrFault_of_read {cfg : Config} {a : Nat} (h : ¬ allowed cfg .read a) :
    addrFault cfg a = .addressOutOfRange := by
  have hr : ¬ inRange cfg a := fun hr => h (allowed_read hr)
  have he := checkAddr_error h
  rw [checkAddr, checkRange_error hr] at he
  exact (Except.error.inj he).symm

theorem dataBlock_error_kind {s : State} {acc : Access} {n : Nat} {k : FaultKind} (h : dataBlock s acc n = .error k) :
    k ∈ [.addressOutOfRange, .reservedWrite] := by
  rcases dataBlock_cases s acc n with ⟨-, hb⟩ | ⟨_, -, -, -, hb⟩ <;> cases hb.symm.trans h
  exact addrFault_mem _ _

theorem dataBlock_read_error_kind {s : State} {n : Nat} {k : FaultKind} (h : dataBlock s .read n = .error k) :
    k = .addressOutOfRange := by
  rcases dataBlock_cases s .read n with ⟨-, hb⟩ | ⟨_, -, -, hf, hb⟩ <;> cases hb.symm.trans h
  exact addrFault_of_read hf

/-! ## The kinds each instruction raises (R220) -/

/-- An instruction leaves the fault record alone, or records a fault of one of its own kinds. -/
theorem exec_fault_cases {i : Instr} {s t : State} (h : exec i s = .next t) :
    t.fault = s.fault ∨ ∃ k ∈ faultsOf i, t = recordFault k (some (encode i)) s := by
  cases i
  case sys nnn =>
    simp only [exec, execSys] at h
    split at h <;> cases h
    · exact Or.inr ⟨_, List.mem_singleton_self _, rfl⟩
    · exact Or.inl rfl
  case ret =>
    by_cases hsp : s.sp.val = 0
    · cases (exec_ret_empty hsp).symm.trans h; exact Or.inr ⟨_, List.mem_singleton_self _, rfl⟩
    · cases (exec_ret_ok hsp).symm.trans h; exact Or.inl rfl
  case call nnn =>
    by_cases hsp : s.sp.val = 16
    · cases (exec_call_full nnn hsp).symm.trans h; exact Or.inr ⟨_, List.mem_singleton_self _, rfl⟩
    · cases (exec_call_ok nnn (by omega)).symm.trans h; exact Or.inl rfl
  case drw | loadRegs =>
    simp only [exec, execDrw, execLoadRegs] at h
    split at h
    · next k hb => cases h; exact Or.inr ⟨k, List.mem_singleton.mpr (dataBlock_read_error_kind hb), rfl⟩
    · cases h; exact Or.inl (by simp)
  case ldB | storeRegs =>
    simp only [exec, execLdB, execStoreRegs] at h
    split at h
    · next k hb => cases h; exact Or.inr ⟨k, dataBlock_error_kind hb, rfl⟩
    · cases h; exact Or.inl (by simp)
  case skp | sknp | ldF =>
    simp only [exec, execSkp, execSknp, execLdF] at h
    split at h
    · next k hd => cases h; exact Or.inr ⟨k, List.mem_singleton.mpr (digitOf_error_kind hd), rfl⟩
    · cases h; exact Or.inl (by simp)
  all_goals (cases h; exact Or.inl (by simp))

/-! ## Who records a fault (R222) -/

/-- A CPU tick leaves the fault record alone, or the core was executing and the record is all that changes. -/
theorem cpuTick_fault_cases {s t : State} (h : cpuTick s = .next t) :
    t.fault = s.fault ∨ executing s ∧ ∃ k word, t = recordFault k word s := by
  rcases cpuTick_cases s with ⟨-, hc⟩ | ⟨he, ⟨k, -, hc⟩ | ⟨w, e, -, -, hc⟩ | ⟨w, i, -, -, hc⟩⟩ <;> rw [hc] at h
  · cases h; exact Or.inl rfl
  · cases h; exact Or.inr ⟨he, _, _, rfl⟩
  · cases h; exact Or.inr ⟨he, _, _, rfl⟩
  · exact (exec_fault_cases h).imp_right fun ⟨k, _, ht⟩ => ⟨he, k, _, ht⟩

@[simp] theorem timerTick_fault (s : State) : (timerTick s).fault = s.fault := by
  rcases timerTick_cases s with h | h <;> rw [h]

@[simp] theorem keyEvent_fault (k : Key) (p : Bool) (s : State) : (keyEvent k p s).fault = s.fault := by
  rcases keyEvent_cases k p s with h | ⟨-, h⟩ <;> simp [h]

/-- A step leaves the fault record alone, or the core was executing and the record is all that changes beside the host's
list: no other transaction than the CPU tick writes the record. -/
theorem step_fault_cases {s t : State} (h : step s = .next t) :
    t.fault = s.fault ∨ executing s ∧ ∃ k word, t = recordFault k word (taken s) := by
  rcases step_cases h with hc | rfl | ⟨k, p, rfl⟩ | ⟨-, rfl⟩ | ⟨-, bytes, rfl⟩ | rfl
  · exact cpuTick_fault_cases hc
  · exact Or.inl (timerTick_fault _)
  · exact Or.inl (keyEvent_fault k p _)
  · exact Or.inl rfl
  · rw [loadProgram_eq]; exact Or.inl rfl
  · exact Or.inl rfl

/-! ## A halted core (R222) -/

theorem cpuTick_of_fault {s : State} (h : s.fault ≠ none) : cpuTick s = .next s :=
  cpuTick_of_not_executing fun ⟨_, hnone, _⟩ => h hnone

theorem keyEvent_of_fault {s : State} (h : s.fault ≠ none) (k : Key) (p : Bool) :
    keyEvent k p s = { s with key := s.key.set k.val p k.isLt } :=
  keyEvent_latch fun ⟨hnone, _⟩ => h hnone

/-- A fault is recorded only in a started core. -/
theorem StatusInv.started_of_fault {s : State} (hs : StatusInv s) (h : s.fault ≠ none) : s.boot = .started := by
  by_contra hb
  obtain ⟨-, hnone⟩ := hs.notStarted hb
  exact h hnone

end Sys2Proof.Machine

open Sys2Proof Sys2Proof.Machine

/-- Settles O8: a halted core is not executing, its timers and key wait are idle, and it is past both loads. -/
theorem haltedCoreIsFrozen : Obligations.HaltedCoreIsFrozen := by
  intro s hs hfault
  have hstarted := hs.started_of_fault hfault
  refine ⟨cpuTick_of_fault hfault, congrArg Host.Outcome.next (timerTick_idle (Or.inr hfault)),
    fun k p => congrArg Host.Outcome.next (keyEvent_of_fault hfault k p), fun t h => ?_⟩
  have htaken : (taken s).fault ≠ none := hfault
  rcases step_cases h with hc | rfl | ⟨k, p, rfl⟩ | ⟨hb, -⟩ | ⟨hb, -⟩ | rfl
  · cases (cpuTick_of_fault htaken).symm.trans hc; rfl
  · rw [timerTick_idle (Or.inr htaken)]; rfl
  · rw [keyEvent_of_fault htaken]; rfl
  · cases hstarted.symm.trans hb
  · cases hstarted.symm.trans hb
  · rfl

/-- Settles O10: the step that records the fault changes neither `pc` nor what the fetch reads, and keeps the invariant
that the record names both. -/
theorem faultsArePrecise : Obligations.FaultsArePrecise := by
  intro s t r hnone h hr
  rcases step_fault_cases h with hsame | ⟨⟨hboot, -, hrun⟩, k, word, rfl⟩
  · cases (hsame.trans hnone).symm.trans hr
  · have ht := stepKeepsStatusConsistent s _ (.of_running hrun hnone) h
    obtain ⟨-, haddr, hfetch⟩ := ht.recorded r hr
    cases hr
    exact ⟨rfl, haddr, ⟨hboot, hnone, hrun⟩, hfetch⟩

/-- Settles O11: the instruction that changes the record writes one of its own kinds there. -/
theorem instructionsRaiseOnlyTheirFaults : Obligations.InstructionsRaiseOnlyTheirFaults := by
  intro i s t r hnone h hr
  rcases exec_fault_cases h with hsame | ⟨k, hk, rfl⟩
  · cases (hsame.trans hnone).symm.trans hr
  · cases hr; exact hk

end

section
/-! PROOFS. Reset and the loads (70_reset_and_hazards.md R260 to R265): the memory at reset, what each load puts where,
and the boot order from reset to the first fetch. -/

namespace Sys2Proof.Machine

/-! ## The memory at reset (R262) -/

theorem resetMemory_wf (cfg : Config) : Memory.wf (resetMemory cfg) = true := by
  unfold resetMemory
  split
  · rfl
  · exact Memory.wfFrom_tabulate _ _ _ (Nat.le_of_eq (Nat.zero_add memSize))

/-- The empty list and the tabulated one both hold the fill at every address. -/
theorem read_resetMemory (cfg : Config) {a : Nat} (ha : a < memSize) :
    Memory.read (resetMemory cfg) a = resetByte cfg a := by
  unfold resetMemory
  split
  · next hfill => rw [resetByte, hfill]; rfl
  · rw [Memory.read_tabulate, if_pos ⟨Nat.zero_le a, by omega⟩]

/-! ## A block in memory -/

theorem read_writeBlock_inside {bs : List Byte} {m : Memory} {base i : Nat} (hwf : Memory.wf m = true)
    (hb : base + bs.length ≤ memSize) (hi : i < bs.length) :
    Memory.read (Memory.writeBlock m base bs) (base + i) = bs[i] := by
  rw [Memory.read_writeBlock hwf hb, dif_pos ⟨by omega, by omega⟩]
  simp

theorem read_writeBlock_outside {bs : List Byte} {m : Memory} {base a : Nat} (hwf : Memory.wf m = true)
    (hb : base + bs.length ≤ memSize) (ha : a < base ∨ base + bs.length ≤ a) :
    Memory.read (Memory.writeBlock m base bs) a = Memory.read m a := by
  rw [Memory.read_writeBlock hwf hb, dif_neg (by omega)]

/-! ## The loads (R263, R264) -/

theorem perform_loadFont {s : State} (hb : s.boot = .afterReset) : perform .loadFont s = .next (loadFont s) :=
  if_pos hb

theorem perform_loadProgram {s : State} (hb : s.boot = .fontLoaded) (bytes : List Byte) :
    perform (.loadProgram bytes) s = .next (loadProgram bytes s).2 :=
  if_pos hb

theorem fontBytes_fits (cfg : Config) : fontBase + (fontBytes cfg).length ≤ memSize := by
  rw [fontBytes_length]; decide

/-- Byte `row` of digit `d` is number 5 * d + row of the font (R263). -/
theorem getElem_fontBytes (cfg : Config) (d : Fin 16) (row : Fin 5) :
    (fontBytes cfg)[5 * d.val + row.val]'(by rw [fontBytes_length]; omega) = cfg.font[d][row] := by
  have h := rows_getElem cfg.font.toList d row (by simp) row.isLt
  rw [Nat.mul_comm] at h
  exact (List.getElem_eq_iff _).mpr h

theorem program_fits {bytes : List Byte} (h : bytes.length ≤ progMax) : progBase + bytes.length ≤ memSize :=
  Nat.add_le_add_left h progBase

/-- A core with `pc` at 0x200 that has just loaded a program fetches the first word of it (R63, R264). -/
theorem fetch_firstWord {s : State} {b0 b1 : Byte} {more : List Byte} (hwf : Memory.wf s.mem = true)
    (hpc : s.pc = 0x200) (hlen : (b0 :: b1 :: more).length ≤ progMax) :
    fetch (loadProgram (b0 :: b1 :: more) s).2 = .ok (wordOfBytes b0 b1) := by
  rw [loadProgram_ok s hlen, fetch_ok (by simp [hpc]) (by simp [hpc])]
  have h0 := read_writeBlock_inside (i := 0) hwf (program_fits hlen) (by simp)
  have h1 := read_writeBlock_inside (i := 1) hwf (program_fits hlen) (by simp)
  simp only [hpc]
  exact congrArg Except.ok (congrArg₂ wordOfBytes h0 h1)

/-- The two loads of the boot order take two steps, whatever the host does after them (R265). -/
theorem run_boot {s : State} {bytes : List Byte} {rest : List Transaction} (hb : s.boot = .afterReset)
    (hp : s.pending = .loadFont :: .loadProgram bytes :: rest) :
    core.run 2 s = .next (loadProgram bytes { loadFont s with pending := rest }).2 := by
  have hprogram := step_loadProgram (s := loadFont { s with pending := .loadProgram bytes :: rest }) rfl rfl
  exact (core_run_succ 1 (step_loadFont hp hb)).trans (core_run_succ 0 hprogram)

end Sys2Proof.Machine

open Sys2Proof Sys2Proof.Machine

/-- Settles O43: the fill is the byte at reset, at every address. -/
theorem resetMemoryHoldsTheFill : Obligations.ResetMemoryHoldsTheFill := by
  refine ⟨resetMemory_wf, fun cfg b hfill a ha => ?_⟩
  have hread : Memory.read (State.resetOf cfg).mem a = resetByte cfg a := read_resetMemory cfg ha
  rw [hread, resetByte, hfill]

/-- Settles O44: the font is one block, and row `row` of digit `d` is its byte 5 * d + row. -/
theorem loadFontWritesTheTable : Obligations.LoadFontWritesTheTable := by
  intro s hb hwf
  have hfits := fontBytes_fits s.cfg
  refine ⟨_, perform_loadFont hb, fun d row => ?_, fun a ha => ?_, rfl⟩
  · rw [Nat.add_assoc]
    exact (read_writeBlock_inside hwf hfits (by rw [fontBytes_length]; omega)).trans (getElem_fontBytes s.cfg d row)
  · exact read_writeBlock_outside hwf hfits (by rw [fontBytes_length, fontBase]; omega)

/-- Settles O45: a program that does not fit, then one that is copied as one block. -/
theorem loadProgramCopiesOrRefuses : Obligations.LoadProgramCopiesOrRefuses := by
  refine fun s bytes hb hwf => ⟨fun hlarge => ?_, fun hfits => ?_⟩
  · rw [perform_loadProgram hb, loadProgram_tooLarge s hlarge]
    exact ⟨rfl, rfl⟩
  · rw [perform_loadProgram hb, loadProgram_ok s hfits]
    exact ⟨rfl, _, rfl, fun i hi => read_writeBlock_inside hwf (program_fits hfits) hi,
      fun a ha => read_writeBlock_outside hwf (program_fits hfits) ha, rfl⟩

/-- Settles O47: two steps, one for each load, and the fetch of what the second one copied. -/
theorem bootLeadsToTheFirstWord : Obligations.BootLeadsToTheFirstWord := by
  intro b0 b1 more hmore
  have hlen : (b0 :: b1 :: more).length ≤ progMax := Nat.add_le_add_right hmore 2
  have hwf : Memory.wf (loadFont State.reset).mem = true := loadFont_wf (resetMemory_wf defaultConfig)
  have hrun := run_boot (s := { State.reset with pending := [.loadFont, .loadProgram (b0 :: b1 :: more)] }) rfl rfl
  have hfetch := fetch_firstWord (s := { loadFont State.reset with pending := [] }) hwf rfl hlen
  rw [loadProgram_ok _ hlen] at hrun hfetch
  exact ⟨_, hrun, ⟨rfl, rfl, rfl⟩, rfl, rfl, hfetch⟩

/-- Settles O42, element by element of R41. -/
theorem resetGivesTheListedValues : Obligations.ResetGivesTheListedValues :=
  ⟨rfl, fun r => Vector.getElem_ofFn r.isLt, rfl, rfl, rfl, rfl, Display.pixel_clear,
    fun k => Vector.getElem_replicate k.isLt, rfl, rfl, fun _ ha => read_resetMemory defaultConfig ha⟩

/-- Settles O46: a core that is not started is not executing, its timers are idle, and it waits for no key. -/
theorem nothingRunsBeforeTheStart : Obligations.NothingRunsBeforeTheStart := by
  refine ⟨fun s hs hboot => ⟨?_, ?_, fun k p => ?_⟩, fun s => ⟨fun hb => if_neg hb, fun hb bytes => if_neg hb⟩⟩
  · exact cpuTick_of_not_executing fun ⟨hstarted, _, _⟩ => hboot hstarted
  · exact congrArg Host.Outcome.next (timerTick_idle (Or.inl hboot))
  · obtain ⟨hrun, -⟩ := hs.notStarted hboot
    exact congrArg Host.Outcome.next (keyEvent_latch fun ⟨_, hwait, _⟩ => by cases hrun.symm.trans hwait)

/-- Settles O50: at reset the core is Running and no fault is recorded. -/
theorem resetStatusIsConsistent : Obligations.ResetStatusIsConsistent := .of_running rfl rfl

end
